-- ==== Sys2Proof/Word.lean ====
section
/-! DEFINITION. The fixed widths of CHIP8-CORE (spec/00_scope.md R5, R6): every value of the machine is an unsigned
bit string of 4, 8, 12 or 16 bits, and no rule sign-extends anything. -/

namespace Sys2Proof

/-- A `u4`: a register index (X, Y), a sprite height (N) or a key index (R6, R91). -/
abbrev Nibble := BitVec 4

/-- A `u8`: a general register, a timer, a memory cell or an immediate NN (R5). -/
abbrev Byte := BitVec 8

/-- A `u12`: a memory address, 0x000 to 0xFFF (R60). Its arithmetic wraps modulo 0x1000, which is the reduction that
R22, R23 and R63 put on I, on the PC and on every access address. -/
abbrev Addr := BitVec 12

/-- A `u16`: an instruction word or a call-stack slot (R5, R24). -/
abbrev Word := BitVec 16

end Sys2Proof
end

