-- ==== Sys2Proof/Syntax.lean ====
section
/-! DEFINITION. The abstract syntax: the 34 instructions of spec/30_encoding.md R94, one constructor per row of
spec/opcode_table.json. An operand's type has exactly the width of its field (R91, R92), so an operand out of range
cannot be written down (R20). -/

namespace Sys2Proof

/-- The base CHIP-8 instruction set (R94). The Y operand of `shr` and `shl` is in the encoding and ignored by the
meaning (R168, R170). -/
inductive Instr where
  /-- 00E0 (R211) -/
  | cls
  /-- 00EE (R140) -/
  | ret
  /-- 1NNN (R141) -/
  | jp (nnn : Addr)
  /-- 2NNN (R142) -/
  | call (nnn : Addr)
  /-- 3XNN (R144) -/
  | seImm (x : Nibble) (nn : Byte)
  /-- 4XNN (R145) -/
  | sneImm (x : Nibble) (nn : Byte)
  /-- 5XY0 (R146) -/
  | seReg (x y : Nibble)
  /-- 6XNN (R160) -/
  | ldImm (x : Nibble) (nn : Byte)
  /-- 7XNN (R161) -/
  | addImm (x : Nibble) (nn : Byte)
  /-- 8XY0 (R162) -/
  | ldReg (x y : Nibble)
  /-- 8XY1 (R163) -/
  | or (x y : Nibble)
  /-- 8XY2 (R164) -/
  | and (x y : Nibble)
  /-- 8XY3 (R165) -/
  | xor (x y : Nibble)
  /-- 8XY4 (R166) -/
  | addReg (x y : Nibble)
  /-- 8XY5 (R167) -/
  | sub (x y : Nibble)
  /-- 8XY6 (R168) -/
  | shr (x y : Nibble)
  /-- 8XY7 (R169) -/
  | subn (x y : Nibble)
  /-- 8XYE (R170) -/
  | shl (x y : Nibble)
  /-- 9XY0 (R147) -/
  | sneReg (x y : Nibble)
  /-- ANNN (R190) -/
  | ldI (nnn : Addr)
  /-- BNNN (R143) -/
  | jpV0 (nnn : Addr)
  /-- CXNN (R171) -/
  | rnd (x : Nibble) (nn : Byte)
  /-- DXYN (R212) -/
  | drw (x y n : Nibble)
  /-- EX9E (R230) -/
  | skp (x : Nibble)
  /-- EXA1 (R231) -/
  | sknp (x : Nibble)
  /-- FX07 (R232) -/
  | ldVxDt (x : Nibble)
  /-- FX0A (R233) -/
  | ldVxK (x : Nibble)
  /-- FX15 (R235) -/
  | ldDtVx (x : Nibble)
  /-- FX18 (R236) -/
  | ldStVx (x : Nibble)
  /-- FX1E (R191) -/
  | addI (x : Nibble)
  /-- FX29 (R192) -/
  | ldF (x : Nibble)
  /-- FX33 (R193) -/
  | ldB (x : Nibble)
  /-- FX55 (R194) -/
  | ldMemVx (x : Nibble)
  /-- FX65 (R195) -/
  | ldVxMem (x : Nibble)
  deriving DecidableEq, Repr

/-- Why bytes decode to no instruction. -/
inductive DecodeError where
  /-- `Unknown(op)`: the word matches no pattern (R95, R98). -/
  | unknownOpcode (op : Word)
  /-- Fewer than the two bytes of an instruction were given (R90). A fetch always gives two. -/
  | truncated
  deriving DecidableEq, Repr

end Sys2Proof
end

