-- ==== Sys2Proof/WellFormed.lean ====
section
/-! DEFINITION. Which instruction words are well-formed: the mask and match columns of spec/30_encoding.md R94.

The check is on WORDS. A term of `Instr` needs none: its operands are typed with the exact widths of their fields
(R20 "structurally impossible", R91), so every term of `Instr` is well-formed. The table below is kept apart from the
decoder (Decode.lean), which dispatches on nibbles, so that each can be held against the other. -/

namespace Sys2Proof

/-- One row of the opcode map of R94: a word is selected when `op AND mask = bits`. -/
structure EncodingRow where
  /-- The source's name of the instruction. -/
  pattern : String
  mask : Word
  bits : Word
  deriving DecidableEq, Repr

/-- R94: "An instruction is selected when `op AND mask = match`." -/
def EncodingRow.selects (r : EncodingRow) (op : Word) : Bool := op &&& r.mask == r.bits

/-- Formats E and A, and the format XI (R92). -/
def rowsWide : List EncodingRow :=
  [⟨"00E0", 0xFFFF, 0x00E0⟩, ⟨"00EE", 0xFFFF, 0x00EE⟩, ⟨"1NNN", 0xF000, 0x1000⟩, ⟨"2NNN", 0xF000, 0x2000⟩,
   ⟨"ANNN", 0xF000, 0xA000⟩, ⟨"BNNN", 0xF000, 0xB000⟩, ⟨"3XNN", 0xF000, 0x3000⟩, ⟨"4XNN", 0xF000, 0x4000⟩,
   ⟨"6XNN", 0xF000, 0x6000⟩, ⟨"7XNN", 0xF000, 0x7000⟩, ⟨"CXNN", 0xF000, 0xC000⟩, ⟨"DXYN", 0xF000, 0xD000⟩]

/-- Format XY (R92). -/
def rowsRegReg : List EncodingRow :=
  [⟨"5XY0", 0xF00F, 0x5000⟩, ⟨"8XY0", 0xF00F, 0x8000⟩, ⟨"8XY1", 0xF00F, 0x8001⟩, ⟨"8XY2", 0xF00F, 0x8002⟩,
   ⟨"8XY3", 0xF00F, 0x8003⟩, ⟨"8XY4", 0xF00F, 0x8004⟩, ⟨"8XY5", 0xF00F, 0x8005⟩, ⟨"8XY6", 0xF00F, 0x8006⟩,
   ⟨"8XY7", 0xF00F, 0x8007⟩, ⟨"8XYE", 0xF00F, 0x800E⟩, ⟨"9XY0", 0xF00F, 0x9000⟩]

/-- Format XK (R92). -/
def rowsFunction : List EncodingRow :=
  [⟨"EX9E", 0xF0FF, 0xE09E⟩, ⟨"EXA1", 0xF0FF, 0xE0A1⟩, ⟨"FX07", 0xF0FF, 0xF007⟩, ⟨"FX0A", 0xF0FF, 0xF00A⟩,
   ⟨"FX15", 0xF0FF, 0xF015⟩, ⟨"FX18", 0xF0FF, 0xF018⟩, ⟨"FX1E", 0xF0FF, 0xF01E⟩, ⟨"FX29", 0xF0FF, 0xF029⟩,
   ⟨"FX33", 0xF0FF, 0xF033⟩, ⟨"FX55", 0xF0FF, 0xF055⟩, ⟨"FX65", 0xF0FF, 0xF065⟩]

/-- The 34 rows of R94. -/
def encodingRows : List EncodingRow := rowsWide ++ rowsRegReg ++ rowsFunction

/-- A word is well-formed when some row of R94 selects it; every other word is unknown (R95). -/
def wordWellFormed (op : Word) : Bool := encodingRows.any (·.selects op)

end Sys2Proof
end

