-- ==== Sys2Proof/Decode.lean ====
section
/-! DEFINITION. The decoder, total on any bytes and rejecting by name (spec/30_encoding.md R90 to R98), and after it the
encoder, written from the same opcode map. -/

namespace Sys2Proof

/-! ### Fields (R91) -/

/-- n1, bits 15:12: the major opcode. -/
def fieldN1 (op : Word) : Nibble := op.extractLsb' 12 4
/-- X, bits 11:8. -/
def fieldX (op : Word) : Nibble := op.extractLsb' 8 4
/-- Y, bits 7:4. -/
def fieldY (op : Word) : Nibble := op.extractLsb' 4 4
/-- N, bits 3:0. -/
def fieldN (op : Word) : Nibble := op.extractLsb' 0 4
/-- NN, bits 7:0. -/
def fieldNN (op : Word) : Byte := op.extractLsb' 0 8
/-- NNN, bits 11:0. -/
def fieldNNN (op : Word) : Addr := op.extractLsb' 0 12

/-! ### Decode -/

/-- Family 0: two exact words, everything else unknown (R95; conflict C3). -/
def decodeFamily0 (op : Word) : Except DecodeError Instr :=
  match (fieldNNN op).toNat with
  | 0x0E0 => .ok .cls
  | 0x0EE => .ok .ret
  | _ => .error (.unknownOpcode op)

/-- Family 5: `5XYn` with n ≠ 0 is unknown (R95, C3). -/
def decodeFamily5 (op : Word) : Except DecodeError Instr :=
  match (fieldN op).toNat with
  | 0 => .ok (.seReg (fieldX op) (fieldY op))
  | _ => .error (.unknownOpcode op)

/-- Family 8, selected by the lowest nibble (R94). -/
def decodeFamily8 (op : Word) : Except DecodeError Instr :=
  match (fieldN op).toNat with
  | 0x0 => .ok (.ldReg (fieldX op) (fieldY op))
  | 0x1 => .ok (.or (fieldX op) (fieldY op))
  | 0x2 => .ok (.and (fieldX op) (fieldY op))
  | 0x3 => .ok (.xor (fieldX op) (fieldY op))
  | 0x4 => .ok (.addReg (fieldX op) (fieldY op))
  | 0x5 => .ok (.sub (fieldX op) (fieldY op))
  | 0x6 => .ok (.shr (fieldX op) (fieldY op))
  | 0x7 => .ok (.subn (fieldX op) (fieldY op))
  | 0xE => .ok (.shl (fieldX op) (fieldY op))
  | _ => .error (.unknownOpcode op)

/-- Family 9: `9XYn` with n ≠ 0 is unknown (R95, C3). -/
def decodeFamily9 (op : Word) : Except DecodeError Instr :=
  match (fieldN op).toNat with
  | 0 => .ok (.sneReg (fieldX op) (fieldY op))
  | _ => .error (.unknownOpcode op)

/-- Family E, selected by the low byte (R94). -/
def decodeFamilyE (op : Word) : Except DecodeError Instr :=
  match (fieldNN op).toNat with
  | 0x9E => .ok (.skp (fieldX op))
  | 0xA1 => .ok (.sknp (fieldX op))
  | _ => .error (.unknownOpcode op)

/-- Family F, selected by the low byte (R94). -/
def decodeFamilyF (op : Word) : Except DecodeError Instr :=
  match (fieldNN op).toNat with
  | 0x07 => .ok (.ldVxDt (fieldX op))
  | 0x0A => .ok (.ldVxK (fieldX op))
  | 0x15 => .ok (.ldDtVx (fieldX op))
  | 0x18 => .ok (.ldStVx (fieldX op))
  | 0x1E => .ok (.addI (fieldX op))
  | 0x29 => .ok (.ldF (fieldX op))
  | 0x33 => .ok (.ldB (fieldX op))
  | 0x55 => .ok (.ldMemVx (fieldX op))
  | 0x65 => .ok (.ldVxMem (fieldX op))
  | _ => .error (.unknownOpcode op)

/-- R98: for every word exactly one of the 34 instructions, or `Unknown(op)`. It depends on the word alone (R96). -/
def decodeWord (op : Word) : Except DecodeError Instr :=
  match (fieldN1 op).toNat with
  | 0x0 => decodeFamily0 op
  | 0x1 => .ok (.jp (fieldNNN op))
  | 0x2 => .ok (.call (fieldNNN op))
  | 0x3 => .ok (.seImm (fieldX op) (fieldNN op))
  | 0x4 => .ok (.sneImm (fieldX op) (fieldNN op))
  | 0x5 => decodeFamily5 op
  | 0x6 => .ok (.ldImm (fieldX op) (fieldNN op))
  | 0x7 => .ok (.addImm (fieldX op) (fieldNN op))
  | 0x8 => decodeFamily8 op
  | 0x9 => decodeFamily9 op
  | 0xA => .ok (.ldI (fieldNNN op))
  | 0xB => .ok (.jpV0 (fieldNNN op))
  | 0xC => .ok (.rnd (fieldX op) (fieldNN op))
  | 0xD => .ok (.drw (fieldX op) (fieldY op) (fieldN op))
  | 0xE => decodeFamilyE op
  | 0xF => decodeFamilyF op
  | _ => .error (.unknownOpcode op)

/-- The byte order of an instruction: "high byte first" (R64, R90). -/
def wordOfBytes (hi lo : Byte) : Word := (hi.setWidth 16 <<< 8) ||| lo.setWidth 16

/-- Decode the instruction at the front of a byte string and give back the rest (R90: always two bytes). -/
def decode : List Byte → Except DecodeError (Instr × List Byte)
  | hi :: lo :: rest => (decodeWord (wordOfBytes hi lo)).map (·, rest)
  | _ => .error .truncated

/-! ### Encode -/

/-- Format A (R92). -/
def formatA (n1 : Nibble) (nnn : Addr) : Word := (n1.setWidth 16 <<< 12) ||| nnn.setWidth 16
/-- Formats XI and XK (R92): the low byte is the immediate or the function byte. -/
def formatX (n1 x : Nibble) (nn : Byte) : Word :=
  (n1.setWidth 16 <<< 12) ||| (x.setWidth 16 <<< 8) ||| nn.setWidth 16
/-- Formats XY and XYN (R92). -/
def formatXY (n1 x y n : Nibble) : Word :=
  (n1.setWidth 16 <<< 12) ||| (x.setWidth 16 <<< 8) ||| (y.setWidth 16 <<< 4) ||| n.setWidth 16

/-- The word of an instruction (R92, R94). -/
def encode : Instr → Word
  | .cls => 0x00E0
  | .ret => 0x00EE
  | .jp nnn => formatA 0x1 nnn
  | .call nnn => formatA 0x2 nnn
  | .seImm x nn => formatX 0x3 x nn
  | .sneImm x nn => formatX 0x4 x nn
  | .seReg x y => formatXY 0x5 x y 0x0
  | .ldImm x nn => formatX 0x6 x nn
  | .addImm x nn => formatX 0x7 x nn
  | .ldReg x y => formatXY 0x8 x y 0x0
  | .or x y => formatXY 0x8 x y 0x1
  | .and x y => formatXY 0x8 x y 0x2
  | .xor x y => formatXY 0x8 x y 0x3
  | .addReg x y => formatXY 0x8 x y 0x4
  | .sub x y => formatXY 0x8 x y 0x5
  | .shr x y => formatXY 0x8 x y 0x6
  | .subn x y => formatXY 0x8 x y 0x7
  | .shl x y => formatXY 0x8 x y 0xE
  | .sneReg x y => formatXY 0x9 x y 0x0
  | .ldI nnn => formatA 0xA nnn
  | .jpV0 nnn => formatA 0xB nnn
  | .rnd x nn => formatX 0xC x nn
  | .drw x y n => formatXY 0xD x y n
  | .skp x => formatX 0xE x 0x9E
  | .sknp x => formatX 0xE x 0xA1
  | .ldVxDt x => formatX 0xF x 0x07
  | .ldVxK x => formatX 0xF x 0x0A
  | .ldDtVx x => formatX 0xF x 0x15
  | .ldStVx x => formatX 0xF x 0x18
  | .addI x => formatX 0xF x 0x1E
  | .ldF x => formatX 0xF x 0x29
  | .ldB x => formatX 0xF x 0x33
  | .ldMemVx x => formatX 0xF x 0x55
  | .ldVxMem x => formatX 0xF x 0x65

/-- The byte at the lower address of a word in memory (R64). -/
def highByte (op : Word) : Byte := op.extractLsb' 8 8
/-- The byte at the higher address of a word in memory (R64). -/
def lowByte (op : Word) : Byte := op.extractLsb' 0 8

/-- The bytes of a word as they stand in memory, high byte first (R64). -/
def bytesOfWord (op : Word) : List Byte := [highByte op, lowByte op]

/-! ### The opcode table's numbering -/

/-- An opcode-table word of `nbits` bits as the 16-bit instruction word (bits above `nbits` are 0). -/
def tableWord (nbits w : Nat) : Word := BitVec.ofNat 16 (w % 2 ^ nbits)

/-- The instruction the decoder reads from an opcode-table word laid out as the hardware stores it. -/
def decodeTableWord (nbits w : Nat) : Option Instr :=
  match decode (bytesOfWord (tableWord nbits w)) with
  | .ok (i, _) => some i
  | .error _ => none

end Sys2Proof
end

