-- ==== Sys2Proof/Config.lean ====
section
/-! DEFINITION. What is fixed for the machine (spec/00_scope.md R5) and the one value the spec leaves free. -/

namespace Sys2Proof.Config

/-- `MEM_SIZE` (R5, R60). -/
def memSize : Nat := 0x1000

/-- `PROG_ORIGIN`: the program origin and the PC after reset (R5, R61). -/
def progOrigin : Nat := 0x200

/-- `FONT_BASE` (R5, R61). -/
def fontBase : Nat := 0x050

/-- `STACK_CAP`, the entries of the call stack (R5, R24). -/
def stackCap : Nat := 16

/-- The parameter `FONT[0..79]` of R62 at the default the spec gives it, 16 glyphs of five bytes.
PRESUMED (log entry 1, unsafe): the spec itself supplies these bytes from general knowledge. A claim that depends on a
font byte names this constant. -/
def font : List Byte :=
  [0xF0, 0x90, 0x90, 0x90, 0xF0] ++ [0x20, 0x60, 0x20, 0x20, 0x70] ++
  [0xF0, 0x10, 0xF0, 0x80, 0xF0] ++ [0xF0, 0x10, 0xF0, 0x10, 0xF0] ++
  [0x90, 0x90, 0xF0, 0x10, 0x10] ++ [0xF0, 0x80, 0xF0, 0x10, 0xF0] ++
  [0xF0, 0x80, 0xF0, 0x90, 0xF0] ++ [0xF0, 0x10, 0x20, 0x40, 0x40] ++
  [0xF0, 0x90, 0xF0, 0x90, 0xF0] ++ [0xF0, 0x90, 0xF0, 0x10, 0xF0] ++
  [0xF0, 0x90, 0xF0, 0x90, 0x90] ++ [0xE0, 0x90, 0xE0, 0x90, 0xE0] ++
  [0xF0, 0x80, 0x80, 0x80, 0xF0] ++ [0xE0, 0x90, 0x90, 0x90, 0xE0] ++
  [0xF0, 0x80, 0xF0, 0x80, 0xF0] ++ [0xF0, 0x80, 0xF0, 0x80, 0x80]

/-- FREE VALUE (R171, D18, U1): `rnd`, the byte the outside world gives to the n-th CXNN. It has no body, so a claim
about a program holds for every sequence of draws (log entry 2, safe). -/
opaque freeByte : Nat → Byte

end Sys2Proof.Config
end

