-- ==== Sys2Proof/Machine/State.lean ====
section
/-! DEFINITION. The state of CHIP8-CORE (spec/10_state.md R20 to R35), the host's operations on it (spec/00_scope.md
R9), and the reasons a step can stop. -/

namespace Sys2Proof.Machine

/-- Memory as the list of the cells that differ from their reset contents (R28, R60), in one canonical form
(`Memory.wf` in Ops.lean). -/
abbrev Memory := List Host.Cell

/-- The framebuffer as 32 rows of 64 pixels: `FB[x][y]` is bit `x` of row `y` (R26, R210). -/
abbrev Framebuffer := Vector (BitVec 64) 32

/-- The halt latch `HALT` (R30). -/
inductive Halt where
  /-- `None`: the engine runs. -/
  | none
  /-- A 2NNN found the stack full (R251). -/
  | stackOverflow
  /-- A 00EE found the stack empty (R252). -/
  | stackUnderflow
  deriving DecidableEq, Repr

/-- What a step reports to the host (R124, D29). -/
inductive Status where
  | ok
  /-- The fetched word `op` matched no pattern (R125). -/
  | unknownOpcode (op : Word)
  | stackOverflow
  | stackUnderflow
  deriving DecidableEq, Repr

/-- What an operation of R9 returns to its caller. -/
inductive OpResult where
  /-- The operations that return nothing: `machine_init`, `tick_timers`, `set_key`. -/
  | done
  /-- `step` (R124). -/
  | status (st : Status)
  /-- `load` returned `Ok` (R292). -/
  | loaded
  /-- `load` returned `CapacityError` (R254, R293). -/
  | capacityError
  /-- `snapshot_framebuffer` (R265): a copy of the 64 by 32 pixels. -/
  | snapshot (fb : Framebuffer)
  /-- `is_sound_active` (R262). -/
  | sound (active : Bool)
  deriving DecidableEq, Repr

/-- The operations through which the outside world acts on the block (R9). The argument `rnd` of `step` is not here: it is
the free value `Config.freeByte` (log entry 2). -/
inductive HostOp where
  | machineInit
  | load (bytes : List Byte)
  | step
  | tickTimers
  | setKey (k : Nibble) (pressed : Bool)
  | snapshotFramebuffer
  | isSoundActive
  deriving DecidableEq, Repr

/-- The state of the block, with the spec's own names, and below the line the model's own fields. -/
structure State where
  /-- `V[0..15]` (R20); V[15] is VF (R21). -/
  v : Vector Byte 16
  /-- The index register `I` (R22), held as the 12 bits that can be non-zero. -/
  ireg : Addr
  /-- The program counter (R23), held as the 12 bits that can be non-zero. -/
  pc : Addr
  /-- `STACK[0..15]` (R24). -/
  stack : Vector Word 16
  /-- `SP`, the depth of the call stack, 0 to 16 (R24). -/
  sp : Nat
  /-- The delay timer `DT` (R25). -/
  dt : Byte
  /-- The sound timer `ST` (R25). -/
  st : Byte
  /-- The framebuffer `FB` (R26). -/
  fb : Framebuffer
  /-- The key flags: bit k is `KEY[k]`, 1 while key k is down (R27). -/
  key : BitVec 16
  /-- `MEM` (R28, R60). -/
  mem : Memory
  /-- `WAIT`: the engine is in the awaiting-key state (R29). -/
  waiting : Bool
  /-- `WAIT_X`: the register that will receive the key (R29). -/
  waitX : Nibble
  /-- `WAIT_PREV`: the key flags at the last look (R29). -/
  waitPrev : BitVec 16
  /-- `HALT` (R30). -/
  halt : Halt
  -- The model's own fields: no instruction's result depends on any of them but `draws` (CXNN).
  /-- MODEL'S OWN: how many free bytes CXNN has drawn (log entry 2). -/
  draws : Nat
  /-- MODEL'S OWN: the operations the host issues next, oldest first; when it is empty the host issues `step` (R266,
  R267; log entry 3). -/
  schedule : List HostOp
  /-- MODEL'S OWN: `load` still has a meaning, that is, no `load` and no `step` came after the last reset (R294; log
  entry 4). -/
  loadOpen : Bool
  /-- MODEL'S OWN: what the last operation returned to the host (R9, R124; log entry 5). -/
  result : OpResult
  /-- MODEL'S OWN: the unknown words reported so far, newest first (D17, U11; log entry 5). -/
  reports : List Word
  deriving DecidableEq, Repr

/-- The machine after `machine_init()` (R32, R290), with nothing loaded and nothing scheduled. -/
def State.reset : State where
  v := Vector.replicate 16 0
  ireg := 0
  pc := BitVec.ofNat 12 Config.progOrigin
  stack := Vector.replicate 16 0
  sp := 0
  dt := 0
  st := 0
  fb := Vector.replicate 32 0
  key := 0
  mem := []
  waiting := false
  waitX := 0
  waitPrev := 0
  halt := .none
  draws := 0
  schedule := []
  loadOpen := true
  result := .done
  reports := []

/-- Reasons for which a step stops with a fault. There is NONE: "No other condition is an error: no address, alignment,
register index, key index, timer value or arithmetic result raises anything" (R250), and the errors the block does raise
are states it goes on from (R129, R251 to R254; log entry 6), so the type has no constructor. -/
inductive Fault where
  deriving DecidableEq, Repr

/-- Reasons for which a step is given no meaning. -/
inductive Refusal where
  /-- Raised by an arm of `exec` for an instruction that is not modelled yet. Safe. No arm raises it now. -/
  | notModelled (mnemonic : String)
  /-- Raised by the operation `load` when a `load` or a `step` has already come after the last reset: "give no meaning to a
  `load` issued after the first `step` or a second `load` without a reset between them" (R294, U14). Safe. -/
  | loadOutOfOrder
  deriving DecidableEq, Repr

/-- What an instruction's meaning, and a step, answers. -/
abbrev Result := Host.Outcome State Fault Refusal

end Sys2Proof.Machine
end

