-- ==== Sys2Proof/Machine/Ops.lean ====
section
/-! DEFINITION. The named operations over memory, the registers, the call stack and the framebuffer (spec/00_scope.md R7),
and the one way an error is raised (spec/60_exceptions.md R250, R257). -/

namespace Sys2Proof.Machine

/-! ### Memory (R60 to R67) -/

/-- What address `a` holds after `machine_init()`, which is what an unlisted address reads as: the font table at 0x050 to
0x09F and zero elsewhere (R28, R61, R62). -/
def resetByte (a : Nat) : Byte :=
  if Config.fontBase ≤ a then Config.font.getD (a - Config.fontBase) 0 else 0

/-- The canonical form from address `lo` up: addresses strictly rising and inside the 4096 cells, and no cell listed that
holds its reset contents. -/
def Memory.wfFrom : Nat → Memory → Bool
  | _, [] => true
  | lo, (a, b) :: rest => decide (lo ≤ a) && decide (a < Config.memSize) && b != resetByte a && Memory.wfFrom (a + 1) rest

/-- Memory is in its one canonical form, so that equal memories are equal data. -/
def Memory.wf (m : Memory) : Bool := Memory.wfFrom 0 m

/-- The byte at address `a`. -/
def cellAt : Memory → Nat → Byte
  | [], a => resetByte a
  | (k, b) :: rest, a => if k = a then b else cellAt rest a

/-- Put a cell in front, unless it holds its reset contents. -/
def consCell (a : Nat) (b : Byte) (rest : Memory) : Memory :=
  if b = resetByte a then rest else (a, b) :: rest

/-- Memory with byte `b` at address `a`, in canonical form. -/
def putCell : Memory → Nat → Byte → Memory
  | [], a, b => consCell a b []
  | (k, c) :: rest, a, b =>
    if a < k then consCell a b ((k, c) :: rest)
    else if a = k then consCell a b rest
    else (k, c) :: putCell rest a b

/-- `MemRead(addr, 1)` (R7, R63): the address is reduced modulo 0x1000 by its type. -/
def memRead (m : Memory) (a : Addr) : Byte := cellAt m a.toNat

/-- `MemWrite(addr, 1, v)` (R7, R63). No address is protected (R67). -/
def memWrite (m : Memory) (a : Addr) (b : Byte) : Memory := putCell m a.toNat b

/-- Reduce a 16-bit value modulo 0x1000: what R22 and R23 do to a value on its way into I or the PC. -/
def mod4096 (w : Word) : Addr := w.setWidth 12

/-! ### Registers (R20 to R23) -/

/-- `V[x]`. -/
def getV (s : State) (x : Nibble) : Byte := s.v[x.toNat]'(x.isLt)

/-- `V[x] <- b`. -/
def setV (s : State) (x : Nibble) (b : Byte) : State := { s with v := s.v.set x.toNat b x.isLt }

/-- `I <- a`. -/
def setI (s : State) (a : Addr) : State := { s with ireg := a }

/-- `pc <- a`. -/
def setPc (s : State) (a : Addr) : State := { s with pc := a }

/-- Move the PC past one instruction: the fetch advance of R122 and the `skip` of R126, `pc <- (pc + 2) mod 0x1000`. -/
def advancePc (s : State) : State := setPc s (s.pc + 2)

/-! ### Call stack (R24) -/

/-- `push(v)`; none where the stack is full, and then nothing has changed. -/
def push (w : Word) (s : State) : Option State :=
  if h : s.sp < 16 then some { s with stack := s.stack.set s.sp w h, sp := s.sp + 1 } else none

/-- `pop()`: the popped value and the state with the depth lowered, the slot keeping its contents; none where the stack is
empty. -/
def pop (s : State) : Option (Word × State) :=
  match s.sp with
  | 0 => none
  | d + 1 => some (s.stack.getD d 0, { s with sp := d })

/-! ### Errors (R250 to R258) -/

/-- `raise` of a stack error (R251, R252, R257): the halt latch is set and everything else stays as it is, the PC at its
post-fetch value included. No state is saved and control goes nowhere; there is no return but `machine_init()` (R258). -/
def raiseStackError (e : Halt) (s : State) : State := { s with halt := e }

/-- The status that surfaces a halt latch (R124, R129). -/
def haltStatus : Halt → Status
  | .none => .ok
  | .stackOverflow => .stackOverflow
  | .stackUnderflow => .stackUnderflow

/-! ### Framebuffer (R26, R210) -/

/-- `FB[x][y]`, column `x` and row `y`. -/
def pixel (fb : Framebuffer) (x : BitVec 6) (y : BitVec 5) : Bool := (fb[y.toNat]'(y.isLt)).getLsbD x.toNat

/-- `FB[x][y] <- FB[x][y] XOR 1`. -/
def flipPixel (fb : Framebuffer) (x : BitVec 6) (y : BitVec 5) : Framebuffer :=
  fb.set y.toNat ((fb[y.toNat]'(y.isLt)) ^^^ BitVec.twoPow 64 x.toNat) y.isLt

/-- Every pixel 0. -/
def blankFrame : Framebuffer := Vector.replicate 32 0

/-! ### Keys (R27) -/

/-- `KEY[k]`. -/
def keyDown (keys : BitVec 16) (k : Nibble) : Bool := keys.getLsbD k.toNat

end Sys2Proof.Machine
end

