-- ==== Sys2Proof/Machine/Flags.lean ====
section
/-! DEFINITION. The flag computations: VF is the only flag and always receives 0 or 1 (spec/10_state.md R21, R34;
spec/42_alu.md R166 to R173). -/

namespace Sys2Proof.Machine

/-- VF, the register `V[15]` (R21). -/
def vf : Nibble := 0xF

/-- A flag as the byte VF receives. -/
def flagByte (c : Bool) : Byte := if c then 1 else 0

/-- Bit 8 of the 9-bit sum (R166). -/
def carryOut (a b : Byte) : Bool := (a.setWidth 9 + b.setWidth 9).getLsbD 8

/-- The "no borrow" flag of `p - q`: 1 exactly when `p ≥ q` (R167, R169, R173). -/
def notBorrow (p q : Byte) : Bool := decide (q.toNat ≤ p.toNat)

/-- The bit a right shift drops (R168). -/
def lowBit (a : Byte) : Bool := a.getLsbD 0

/-- The bit a left shift drops (R170). -/
def highBit (a : Byte) : Bool := a.getLsbD 7

/-- Write a result and then the flag, in that order, so that with X = 0xF the flag is what VF holds (R172, D6). -/
def writeWithFlag (s : State) (x : Nibble) (r : Byte) (c : Bool) : State := setV (setV s x r) vf (flagByte c)

end Sys2Proof.Machine
end

