-- ==== Sys2Proof/Machine/Alu.lean ====
section
/-! DEFINITION. Load, arithmetic, logic, shift and random (spec/42_alu.md R160 to R173). Every operand is read from the
state before the instruction (R172). -/

namespace Sys2Proof.Machine

/-- R160, 6XNN. -/
def execLdImm (x : Nibble) (nn : Byte) (s : State) : Result := .next (setV s x nn)

/-- R161, 7XNN: no carry is recorded. -/
def execAddImm (x : Nibble) (nn : Byte) (s : State) : Result := .next (setV s x (getV s x + nn))

/-- R162, 8XY0. -/
def execLdReg (x y : Nibble) (s : State) : Result := .next (setV s x (getV s y))

/-- R163, 8XY1: VF is not touched. -/
def execOr (x y : Nibble) (s : State) : Result := .next (setV s x (getV s x ||| getV s y))

/-- R164, 8XY2. -/
def execAnd (x y : Nibble) (s : State) : Result := .next (setV s x (getV s x &&& getV s y))

/-- R165, 8XY3. -/
def execXor (x y : Nibble) (s : State) : Result := .next (setV s x (getV s x ^^^ getV s y))

/-- R166, 8XY4: VF is the carry out. -/
def execAddReg (x y : Nibble) (s : State) : Result :=
  .next (writeWithFlag s x (getV s x + getV s y) (carryOut (getV s x) (getV s y)))

/-- R167, 8XY5: VX minus VY, VF is not-borrow. -/
def execSub (x y : Nibble) (s : State) : Result :=
  .next (writeWithFlag s x (getV s x - getV s y) (notBorrow (getV s x) (getV s y)))

/-- R168, 8XY6: Y is ignored. -/
def execShr (x _y : Nibble) (s : State) : Result := .next (writeWithFlag s x (getV s x >>> 1) (lowBit (getV s x)))

/-- R169, 8XY7: VY minus VX, VF is not-borrow. -/
def execSubn (x y : Nibble) (s : State) : Result :=
  .next (writeWithFlag s x (getV s y - getV s x) (notBorrow (getV s y) (getV s x)))

/-- R170, 8XYE: Y is ignored. -/
def execShl (x _y : Nibble) (s : State) : Result := .next (writeWithFlag s x (getV s x <<< 1) (highBit (getV s x)))

/-- CXNN for a given random byte (R171). -/
def randomMasked (rnd : Byte) (x : Nibble) (nn : Byte) (s : State) : State := setV s x (rnd &&& nn)

/-- R171, CXNN: the random byte is the free value of this draw, and the next CXNN draws anew (log entry 2). -/
def execRnd (x : Nibble) (nn : Byte) (s : State) : Result :=
  .next { randomMasked (Config.freeByte s.draws) x nn s with draws := s.draws + 1 }

end Sys2Proof.Machine
end

