-- ==== Sys2Proof/Machine/Operands.lean ====
section
/-! DEFINITION. The operand forms (spec/30_encoding.md R93, spec/43_index_memory.md): the one addressing mode, base I plus
a small offset; the key number in a register; and the skip on a condition. -/

namespace Sys2Proof.Machine

/-- The address `I + k`, reduced modulo 0x1000 (R63, D3). -/
def indexAddr (s : State) (k : Nat) : Addr := s.ireg + BitVec.ofNat 12 k

/-- Register number `k` of a register block V0 to VX (R194, R195). -/
def blockReg (k : Nat) : Nibble := BitVec.ofNat 4 k

/-- The offsets 0 to X of a register block, ascending (R194, R195: "X + 1 bytes"). -/
def blockOffsets (x : Nibble) : List Nat := List.range (x.toNat + 1)

/-- The key a register names: `V[X] mod 16` (R237, D11). -/
def keyOperand (s : State) (x : Nibble) : Nibble := (getV s x).setWidth 4

/-- `skip` when the condition holds (R126). -/
def skipIf (c : Bool) (s : State) : State := if c then advancePc s else s

end Sys2Proof.Machine
end

