-- ==== Sys2Proof/Machine/ControlFlow.lean ====
section
/-! DEFINITION. Control transfer (spec/41_control_flow.md R140 to R148). `s.pc` is the post-fetch PC. -/

namespace Sys2Proof.Machine

/-- R140, 00EE: pop into the PC, or `StackUnderflowError` (R252). -/
def execRet (s : State) : Result :=
  match pop s with
  | some (w, t) => .next (setPc t (mod4096 w))
  | none => .next (raiseStackError .stackUnderflow s)

/-- R141, 1NNN. -/
def execJp (nnn : Addr) (s : State) : Result := .next (setPc s nnn)

/-- R142, 2NNN: push the post-fetch PC and jump, or `StackOverflowError` (R251) without the jump. -/
def execCall (nnn : Addr) (s : State) : Result :=
  match push (s.pc.setWidth 16) s with
  | some t => .next (setPc t nnn)
  | none => .next (raiseStackError .stackOverflow s)

/-- R143, BNNN. -/
def execJpV0 (nnn : Addr) (s : State) : Result :=
  .next (setPc s (mod4096 (nnn.setWidth 16 + (getV s 0).setWidth 16)))

/-- R144, 3XNN. -/
def execSeImm (x : Nibble) (nn : Byte) (s : State) : Result := .next (skipIf (getV s x == nn) s)

/-- R145, 4XNN. -/
def execSneImm (x : Nibble) (nn : Byte) (s : State) : Result := .next (skipIf (getV s x != nn) s)

/-- R146, 5XY0. -/
def execSeReg (x y : Nibble) (s : State) : Result := .next (skipIf (getV s x == getV s y) s)

/-- R147, 9XY0. -/
def execSneReg (x y : Nibble) (s : State) : Result := .next (skipIf (getV s x != getV s y) s)

end Sys2Proof.Machine
end

