-- ==== Sys2Proof/Machine/Display.lean ====
section
/-! DEFINITION. Display (spec/44_display.md R210 to R213). -/

namespace Sys2Proof.Machine

/-- R211, 00E0: VF is not touched. -/
def execCls (s : State) : Result := .next { s with fb := blankFrame }

/-- The column of a coordinate register, modulo 64 (R210, R212). -/
def column (b : Byte) : BitVec 6 := b.setWidth 6

/-- The row of a coordinate register, modulo 32 (R210, R212). -/
def row (b : Byte) : BitVec 5 := b.setWidth 5

/-- A framebuffer in the course of a draw, with the collision flag so far (`hit` of R212). -/
abbrev Canvas := Framebuffer × Bool

/-- Flip one pixel and remember whether it was lit (R212, D7). -/
def drawPixel (c : Canvas) (x : BitVec 6) (y : BitVec 5) : Canvas :=
  (flipPixel c.1 x y, c.2 || pixel c.1 x y)

/-- Draw the 1 bits of a sprite byte in row `y`: bit `7 - k` at column `x + k`, wrapping modulo 64 (R212, D8, D9). -/
def drawRow (b : Byte) (x : BitVec 6) (y : BitVec 5) (c : Canvas) : Canvas :=
  (List.range 8).foldl (fun c k => if b.getLsbD (7 - k) then drawPixel c (x + BitVec.ofNat 6 k) y else c) c

/-- Draw the `n` sprite bytes at I: byte `r` in row `y + r`, wrapping modulo 32 (R212, D8, D9). -/
def drawSprite (s : State) (n : Nat) (x : BitVec 6) (y : BitVec 5) : Canvas :=
  (List.range n).foldl (fun c r => drawRow (memRead s.mem (indexAddr s r)) x (y + BitVec.ofNat 5 r) c) (s.fb, false)

/-- R212, DXYN: VF is the collision flag, written last (R172, D6). -/
def execDrw (x y n : Nibble) (s : State) : Result :=
  let c := drawSprite s n.toNat (column (getV s x)) (row (getV s y))
  .next (setV { s with fb := c.1 } vf (flagByte c.2))

end Sys2Proof.Machine
end

