-- ==== Sys2Proof/Machine/IndexMemory.lean ====
section
/-! DEFINITION. Index register and memory (spec/43_index_memory.md R190 to R196). I is never moved by an access. -/

namespace Sys2Proof.Machine

/-- R190, ANNN. -/
def execLdI (nnn : Addr) (s : State) : Result := .next (setI s nnn)

/-- R191, FX1E: VF is not touched, even past 0xFFF. -/
def execAddI (x : Nibble) (s : State) : Result :=
  .next (setI s (mod4096 (s.ireg.setWidth 16 + (getV s x).setWidth 16)))

/-- R192, FX29: the whole byte is used, without a mask (D23). -/
def execLdF (x : Nibble) (s : State) : Result :=
  .next (setI s (mod4096 (BitVec.ofNat 16 Config.fontBase + 5 * (getV s x).setWidth 16)))

/-- The three decimal digits of a byte at I, I+1, I+2: hundreds, tens, ones (R193). -/
def storeDigits (s : State) (a : Byte) : Memory :=
  memWrite (memWrite (memWrite s.mem (indexAddr s 0) (a / 100)) (indexAddr s 1) (a / 10 % 10)) (indexAddr s 2) (a % 10)

/-- R193, FX33. -/
def execLdB (x : Nibble) (s : State) : Result := .next { s with mem := storeDigits s (getV s x) }

/-- Store V0 to VX at I, I+1, ... in ascending order (R194). -/
def storeBlock (s : State) (x : Nibble) : Memory :=
  (blockOffsets x).foldl (fun m k => memWrite m (indexAddr s k) (getV s (blockReg k))) s.mem

/-- R194, FX55. -/
def execLdMemVx (x : Nibble) (s : State) : Result := .next { s with mem := storeBlock s x }

/-- Load V0 to VX from I, I+1, ... in ascending order (R195). -/
def loadBlock (s : State) (x : Nibble) : State :=
  (blockOffsets x).foldl (fun t k => setV t (blockReg k) (memRead s.mem (indexAddr s k))) s

/-- R195, FX65. -/
def execLdVxMem (x : Nibble) (s : State) : Result := .next (loadBlock s x)

end Sys2Proof.Machine
end

