-- ==== Sys2Proof/Machine/KeysTimers.lean ====
section
/-! DEFINITION. Key and timer instructions, and the awaiting step that completes FX0A (spec/45_keys_timers.md R230 to
R237). -/

namespace Sys2Proof.Machine

/-- R230, EX9E. -/
def execSkp (x : Nibble) (s : State) : Result := .next (skipIf (keyDown s.key (keyOperand s x)) s)

/-- R231, EXA1. -/
def execSknp (x : Nibble) (s : State) : Result := .next (skipIf (!keyDown s.key (keyOperand s x)) s)

/-- R232, FX07. -/
def execLdVxDt (x : Nibble) (s : State) : Result := .next (setV s x s.dt)

/-- R233, FX0A, the entry step: begin to wait, remember the keys, and put the PC back on this FX0A (D12, D13). -/
def execLdVxK (x : Nibble) (s : State) : Result :=
  .next { s with waiting := true, waitX := x, waitPrev := s.key, pc := s.pc - 2 }

/-- R235, FX15. -/
def execLdDtVx (x : Nibble) (s : State) : Result := .next { s with dt := getV s x }

/-- R236, FX18. -/
def execLdStVx (x : Nibble) (s : State) : Result := .next { s with st := getV s x }

/-- The least key that is down now and was up at the previous look (R234, D12). -/
def newlyPressed (now prev : BitVec 16) : Option Nibble :=
  ((List.range 16).map (BitVec.ofNat 4)).find? (fun k => keyDown now k && !keyDown prev k)

/-- R234, the awaiting step: nothing is fetched; a newly pressed key completes the FX0A, otherwise the keys are
remembered. -/
def awaitingStep (s : State) : State :=
  match newlyPressed s.key s.waitPrev with
  | some k => { advancePc (setV s s.waitX (k.setWidth 8)) with waiting := false }
  | none => { s with waitPrev := s.key }

end Sys2Proof.Machine
end

