-- ==== Sys2Proof/Machine/HostPorts.lean ====
section
/-! DEFINITION. The operations of spec/00_scope.md R9 that are not `step`: reset, load, the timer tick, the key write and the
two read ports (spec/60_exceptions.md R261 to R265, spec/70_reset_and_hazards.md R290 to R294). -/

namespace Sys2Proof.Machine

/-- R290: every item of the block's state at its reset value, whatever the state was. The model's own record of the outside
world goes on: the draws, the host's schedule and the reports (log entries 2, 3, 5); `load` has a meaning again. -/
def machineInit (s : State) : State :=
  { State.reset with draws := s.draws, schedule := s.schedule, reports := s.reports }

/-- Memory with `bytes` at address `base` and up. The bytes go to different cells, so the order of the writes, last byte
first, does not show. -/
def copyBytes (m : Memory) (base : Nat) : List Byte → Memory
  | [] => m
  | b :: rest => putCell (copyBytes m (base + 1) rest) base b

/-- R292, R293: the ROM fits when `0x200 + L` does not exceed 0x1000. -/
def romFits (bytes : List Byte) : Bool := decide (Config.progOrigin + bytes.length ≤ Config.memSize)

/-- R292 to R294: copy the ROM to 0x200 and up, or refuse it whole with `CapacityError`; no meaning out of order. -/
def loadRom (bytes : List Byte) (s : State) : Result :=
  if s.loadOpen then
    if romFits bytes then
      .next { s with mem := copyBytes s.mem Config.progOrigin bytes, loadOpen := false, result := .loaded }
    else .next { s with loadOpen := false, result := .capacityError }
  else .refused .loadOutOfOrder

/-- A timer counts down by 1 and stays at 0 (R25, R261). -/
def countDown (t : Byte) : Byte := if t = 0 then 0 else t - 1

/-- R261. -/
def tickTimers (s : State) : State := { s with dt := countDown s.dt, st := countDown s.st, result := .done }

/-- The key flags with `KEY[k]` set to `pressed`. -/
def writeKey (keys : BitVec 16) (k : Nibble) (pressed : Bool) : BitVec 16 :=
  if pressed then keys ||| BitVec.twoPow 16 k.toNat else keys &&& ~~~ BitVec.twoPow 16 k.toNat

/-- R264. -/
def setKey (k : Nibble) (pressed : Bool) (s : State) : State :=
  { s with key := writeKey s.key k pressed, result := .done }

/-- R265: the value the renderer receives. -/
def snapshotFramebuffer (s : State) : Framebuffer := s.fb

/-- R262: `sound_timer > 0`. -/
def isSoundActive (s : State) : Bool := s.st != 0

end Sys2Proof.Machine
end

