-- ==== Sys2Proof/Machine/Engine.lean ====
section
/-! DEFINITION. The execution engine: fetch, the step as a whole (spec/40_fetch_dispatch.md R120 to R129), and the
operation the host issues next (spec/60_exceptions.md R266, R267). -/

namespace Sys2Proof.Machine

/-- R121: the big-endian word at the PC; both addresses wrap modulo 0x1000 (R63) and need no alignment (R65). -/
def fetch (s : State) : Word := wordOfBytes (memRead s.mem s.pc) (memRead s.mem (s.pc + 1))

/-- End a step: surface its status (R124). After a step `load` has no meaning (R294). -/
def report (st : Status) (s : State) : State := { s with result := .status st, loadOpen := false }

/-- Surface the status of an executed instruction: `Ok`, or the stack error it latched (R124). -/
def complete : Result → Result
  | .next t => .next (report (haltStatus t.halt) t)
  | .fault r => .fault r
  | .refused r => .refused r

/-- R125: an unknown word is reported and is otherwise a no-op; the PC has already been advanced. -/
def reportUnknown (op : Word) (s : State) : State :=
  { report (.unknownOpcode op) s with reports := op :: s.reports }

/-- One instruction: fetch, advance the PC, decode, execute (R121 to R125). -/
def executeNext (s : State) : Result :=
  match decodeWord (fetch s) with
  | .ok i => complete (exec i (advancePc s))
  | .error _ => .next (reportUnknown (fetch s) (advancePc s))

/-- R120: `step(rnd)`. Halted, it changes nothing and returns the latched kind (R129); waiting, it is the awaiting step
(R234); otherwise one instruction. -/
def engineStep (s : State) : Result :=
  match s.halt with
  | .none => if s.waiting then .next (report .ok (awaitingStep s)) else executeNext s
  | h => .next (report (haltStatus h) s)

/-- One operation of R9. -/
def perform (op : HostOp) (s : State) : Result :=
  match op with
  | .machineInit => .next (machineInit s)
  | .load bytes => loadRom bytes s
  | .step => engineStep s
  | .tickTimers => .next (tickTimers s)
  | .setKey k pressed => .next (setKey k pressed s)
  | .snapshotFramebuffer => .next { s with result := .snapshot (snapshotFramebuffer s) }
  | .isSoundActive => .next { s with result := .sound (isSoundActive s) }

/-- The operation the host issues next, and the state with it taken off the schedule; with nothing scheduled the host
issues `step` (R266, R267; log entry 3). -/
def nextOp (s : State) : HostOp × State :=
  match s.schedule with
  | [] => (.step, s)
  | op :: rest => (op, { s with schedule := rest })

/-- One atomic operation of the block. -/
def runNext (s : State) : Result := perform (nextOp s).1 (nextOp s).2

/-- An instruction word stored at the PC, high byte first (R64), with the step gate open (R120) and `step` the next
operation. -/
def placeWord (s : State) (op : Word) : State :=
  { s with
    mem := memWrite (memWrite s.mem s.pc (highByte op)) (s.pc + 1) (lowByte op)
    halt := .none
    waiting := false
    schedule := [] }

end Sys2Proof.Machine
end

