-- ==== Sys2Proof/Safety.lean ====
section
/-! DEFINITION. What counts as a good state, and the terms in which claims are made: the invariant, the frame of each
instruction (the "written by" column of spec/10_state.md R32), and a draw seen pixel by pixel. -/

namespace Sys2Proof.Machine

/-! ### The invariant -/

/-- Every live slot of the call stack holds an address (R24 "every live slot holds a value below 0x1000"). -/
abbrev State.LiveSlotsAreAddresses (s : State) : Prop :=
  ∀ d, d < 16 → d < s.sp → (s.stack.getD d 0).toNat < 0x1000

/-- What holds of every state a run reaches: memory in canonical form; 0 ≤ SP ≤ 16 and the live slots are addresses (R24);
`HALT ≠ None` and `WAIT = 1` do not hold together (R120); and only unknown words have been reported (R125). -/
abbrev State.Inv (s : State) : Prop :=
  Memory.wf s.mem = true ∧ s.sp ≤ 16 ∧ s.LiveSlotsAreAddresses ∧ (s.waiting = true → s.halt = .none) ∧
    ∀ op ∈ s.reports, wordWellFormed op = false

/-! ### When a step executes an instruction -/

/-- The gate of R120 is open and the host's next operation is `step`. -/
abbrev State.Running (s : State) : Prop := s.schedule = [] ∧ s.halt = .none ∧ s.waiting = false

/-- "The program has ended" as R302 recommends: not halted, not waiting, and the word at the PC is a jump to the PC. -/
abbrev State.ProgramEnded (s : State) : Prop := s.halt = .none ∧ s.waiting = false ∧ (fetch s).toNat = 0x1000 + s.pc.toNat

/-- No unknown word has been reported (D17, U11): the premise a claim about a program usually takes. -/
abbrev State.NoneReported (s : State) : Prop := s.reports = []

/-- Instructions executed one after the other, each after the fetch advance (R122, R123). -/
def runInstrs : List Instr → State → Result
  | [], s => .next s
  | i :: rest, s =>
    match exec i (advancePc s) with
    | .next t => runInstrs rest t
    | .fault r => .fault r
    | .refused r => .refused r

/-! ### Who writes what (R32) -/

/-- The registers an instruction may write (R32, R34): VX, VF beside it for the six flag writers, and V0 to VX for FX65. -/
def writesV : Instr → Nibble → Bool
  | .ldImm x _, z | .addImm x _, z | .ldReg x _, z | .or x _, z | .and x _, z | .xor x _, z | .rnd x _, z | .ldVxDt x, z =>
    z == x
  | .addReg x _, z | .sub x _, z | .shr x _, z | .subn x _, z | .shl x _, z => z == x || z == 0xF
  | .drw _ _ _, z => z == 0xF
  | .ldVxMem x, z => decide (z.toNat ≤ x.toNat)
  | .cls, _ | .ret, _ | .jp _, _ | .call _, _ | .seImm _ _, _ | .sneImm _ _, _ | .seReg _ _, _ | .sneReg _ _, _
  | .ldI _, _ | .jpV0 _, _ | .skp _, _ | .sknp _, _ | .ldVxK _, _ | .ldDtVx _, _ | .ldStVx _, _ | .addI _, _ | .ldF _, _
  | .ldB _, _ | .ldMemVx _, _ => false

/-- The number of bytes an instruction stores, from address `I + 0` up (R66, R72): FX33 three, FX55 X + 1, all others
none. -/
def storedBytes : Instr → Nat
  | .ldB _ => 3
  | .ldMemVx x => x.toNat + 1
  | .cls | .ret | .jp _ | .call _ | .seImm _ _ | .sneImm _ _ | .seReg _ _ | .ldImm _ _ | .addImm _ _ | .ldReg _ _
  | .or _ _ | .and _ _ | .xor _ _ | .addReg _ _ | .sub _ _ | .shr _ _ | .subn _ _ | .shl _ _ | .sneReg _ _ | .ldI _
  | .jpV0 _ | .rnd _ _ | .drw _ _ _ | .skp _ | .sknp _ | .ldVxDt _ | .ldVxK _ | .ldDtVx _ | .ldStVx _ | .addI _ | .ldF _
  | .ldVxMem _ => 0

/-- The instruction transfers control: it may put the PC elsewhere than its post-fetch value (R23). -/
def movesPc : Instr → Bool
  | .ret | .jp _ | .call _ | .jpV0 _ | .seImm _ _ | .sneImm _ _ | .seReg _ _ | .sneReg _ _ | .skp _ | .sknp _
  | .ldVxK _ => true
  | .cls | .ldImm _ _ | .addImm _ _ | .ldReg _ _ | .or _ _ | .and _ _ | .xor _ _ | .addReg _ _ | .sub _ _ | .shr _ _
  | .subn _ _ | .shl _ _ | .ldI _ | .rnd _ _ | .drw _ _ _ | .ldVxDt _ | .ldDtVx _ | .ldStVx _ | .addI _ | .ldF _
  | .ldB _ | .ldMemVx _ | .ldVxMem _ => false

/-! ### A draw, pixel by pixel (R212) -/

/-- Does the sprite of `n` bytes at I, with its corner at column `x0` and row `y0`, have a 1 bit at pixel `(px, py)`? The
distances from the corner are taken modulo 64 and 32, so a sprite continues round both edges (R212, D8), bit 7 of a byte
being its first column (D9). -/
def spriteCovers (s : State) (n : Nat) (x0 : BitVec 6) (y0 : BitVec 5) (px : BitVec 6) (py : BitVec 5) : Bool :=
  decide ((px - x0).toNat < 8) && decide ((py - y0).toNat < n) &&
    (memRead s.mem (indexAddr s (py - y0).toNat)).getLsbD (7 - (px - x0).toNat)

end Sys2Proof.Machine
end

