-- ==== Sys2Proof/Laws/State.lean ====
section
/-! SUPPORT. One lemma per field and named update of the state, so that no proof unfolds a record update. -/

namespace Sys2Proof.Machine

/-! ### `setV` -/

@[simp] theorem setV_v (s : State) (x : Nibble) (b : Byte) : (setV s x b).v = s.v.set x.toNat b x.isLt := rfl
@[simp] theorem setV_ireg (s : State) (x : Nibble) (b : Byte) : (setV s x b).ireg = s.ireg := rfl
@[simp] theorem setV_pc (s : State) (x : Nibble) (b : Byte) : (setV s x b).pc = s.pc := rfl
@[simp] theorem setV_stack (s : State) (x : Nibble) (b : Byte) : (setV s x b).stack = s.stack := rfl
@[simp] theorem setV_sp (s : State) (x : Nibble) (b : Byte) : (setV s x b).sp = s.sp := rfl
@[simp] theorem setV_dt (s : State) (x : Nibble) (b : Byte) : (setV s x b).dt = s.dt := rfl
@[simp] theorem setV_st (s : State) (x : Nibble) (b : Byte) : (setV s x b).st = s.st := rfl
@[simp] theorem setV_fb (s : State) (x : Nibble) (b : Byte) : (setV s x b).fb = s.fb := rfl
@[simp] theorem setV_key (s : State) (x : Nibble) (b : Byte) : (setV s x b).key = s.key := rfl
@[simp] theorem setV_mem (s : State) (x : Nibble) (b : Byte) : (setV s x b).mem = s.mem := rfl
@[simp] theorem setV_waiting (s : State) (x : Nibble) (b : Byte) : (setV s x b).waiting = s.waiting := rfl
@[simp] theorem setV_waitX (s : State) (x : Nibble) (b : Byte) : (setV s x b).waitX = s.waitX := rfl
@[simp] theorem setV_waitPrev (s : State) (x : Nibble) (b : Byte) : (setV s x b).waitPrev = s.waitPrev := rfl
@[simp] theorem setV_halt (s : State) (x : Nibble) (b : Byte) : (setV s x b).halt = s.halt := rfl
@[simp] theorem setV_draws (s : State) (x : Nibble) (b : Byte) : (setV s x b).draws = s.draws := rfl
@[simp] theorem setV_schedule (s : State) (x : Nibble) (b : Byte) : (setV s x b).schedule = s.schedule := rfl
@[simp] theorem setV_loadOpen (s : State) (x : Nibble) (b : Byte) : (setV s x b).loadOpen = s.loadOpen := rfl
@[simp] theorem setV_result (s : State) (x : Nibble) (b : Byte) : (setV s x b).result = s.result := rfl
@[simp] theorem setV_reports (s : State) (x : Nibble) (b : Byte) : (setV s x b).reports = s.reports := rfl

/-! ### `setI` -/

@[simp] theorem setI_v (s : State) (a : Addr) : (setI s a).v = s.v := rfl
@[simp] theorem setI_ireg (s : State) (a : Addr) : (setI s a).ireg = a := rfl
@[simp] theorem setI_pc (s : State) (a : Addr) : (setI s a).pc = s.pc := rfl
@[simp] theorem setI_stack (s : State) (a : Addr) : (setI s a).stack = s.stack := rfl
@[simp] theorem setI_sp (s : State) (a : Addr) : (setI s a).sp = s.sp := rfl
@[simp] theorem setI_dt (s : State) (a : Addr) : (setI s a).dt = s.dt := rfl
@[simp] theorem setI_st (s : State) (a : Addr) : (setI s a).st = s.st := rfl
@[simp] theorem setI_fb (s : State) (a : Addr) : (setI s a).fb = s.fb := rfl
@[simp] theorem setI_key (s : State) (a : Addr) : (setI s a).key = s.key := rfl
@[simp] theorem setI_mem (s : State) (a : Addr) : (setI s a).mem = s.mem := rfl
@[simp] theorem setI_waiting (s : State) (a : Addr) : (setI s a).waiting = s.waiting := rfl
@[simp] theorem setI_waitX (s : State) (a : Addr) : (setI s a).waitX = s.waitX := rfl
@[simp] theorem setI_waitPrev (s : State) (a : Addr) : (setI s a).waitPrev = s.waitPrev := rfl
@[simp] theorem setI_halt (s : State) (a : Addr) : (setI s a).halt = s.halt := rfl
@[simp] theorem setI_draws (s : State) (a : Addr) : (setI s a).draws = s.draws := rfl
@[simp] theorem setI_schedule (s : State) (a : Addr) : (setI s a).schedule = s.schedule := rfl
@[simp] theorem setI_loadOpen (s : State) (a : Addr) : (setI s a).loadOpen = s.loadOpen := rfl
@[simp] theorem setI_result (s : State) (a : Addr) : (setI s a).result = s.result := rfl
@[simp] theorem setI_reports (s : State) (a : Addr) : (setI s a).reports = s.reports := rfl

/-! ### `setPc` -/

@[simp] theorem setPc_v (s : State) (a : Addr) : (setPc s a).v = s.v := rfl
@[simp] theorem setPc_ireg (s : State) (a : Addr) : (setPc s a).ireg = s.ireg := rfl
@[simp] theorem setPc_pc (s : State) (a : Addr) : (setPc s a).pc = a := rfl
@[simp] theorem setPc_stack (s : State) (a : Addr) : (setPc s a).stack = s.stack := rfl
@[simp] theorem setPc_sp (s : State) (a : Addr) : (setPc s a).sp = s.sp := rfl
@[simp] theorem setPc_dt (s : State) (a : Addr) : (setPc s a).dt = s.dt := rfl
@[simp] theorem setPc_st (s : State) (a : Addr) : (setPc s a).st = s.st := rfl
@[simp] theorem setPc_fb (s : State) (a : Addr) : (setPc s a).fb = s.fb := rfl
@[simp] theorem setPc_key (s : State) (a : Addr) : (setPc s a).key = s.key := rfl
@[simp] theorem setPc_mem (s : State) (a : Addr) : (setPc s a).mem = s.mem := rfl
@[simp] theorem setPc_waiting (s : State) (a : Addr) : (setPc s a).waiting = s.waiting := rfl
@[simp] theorem setPc_waitX (s : State) (a : Addr) : (setPc s a).waitX = s.waitX := rfl
@[simp] theorem setPc_waitPrev (s : State) (a : Addr) : (setPc s a).waitPrev = s.waitPrev := rfl
@[simp] theorem setPc_halt (s : State) (a : Addr) : (setPc s a).halt = s.halt := rfl
@[simp] theorem setPc_draws (s : State) (a : Addr) : (setPc s a).draws = s.draws := rfl
@[simp] theorem setPc_schedule (s : State) (a : Addr) : (setPc s a).schedule = s.schedule := rfl
@[simp] theorem setPc_loadOpen (s : State) (a : Addr) : (setPc s a).loadOpen = s.loadOpen := rfl
@[simp] theorem setPc_result (s : State) (a : Addr) : (setPc s a).result = s.result := rfl
@[simp] theorem setPc_reports (s : State) (a : Addr) : (setPc s a).reports = s.reports := rfl

/-! ### `advancePc` -/

@[simp] theorem advancePc_v (s : State) : (advancePc s).v = s.v := rfl
@[simp] theorem advancePc_ireg (s : State) : (advancePc s).ireg = s.ireg := rfl
@[simp] theorem advancePc_pc (s : State) : (advancePc s).pc = s.pc + 2 := rfl
@[simp] theorem advancePc_stack (s : State) : (advancePc s).stack = s.stack := rfl
@[simp] theorem advancePc_sp (s : State) : (advancePc s).sp = s.sp := rfl
@[simp] theorem advancePc_dt (s : State) : (advancePc s).dt = s.dt := rfl
@[simp] theorem advancePc_st (s : State) : (advancePc s).st = s.st := rfl
@[simp] theorem advancePc_fb (s : State) : (advancePc s).fb = s.fb := rfl
@[simp] theorem advancePc_key (s : State) : (advancePc s).key = s.key := rfl
@[simp] theorem advancePc_mem (s : State) : (advancePc s).mem = s.mem := rfl
@[simp] theorem advancePc_waiting (s : State) : (advancePc s).waiting = s.waiting := rfl
@[simp] theorem advancePc_waitX (s : State) : (advancePc s).waitX = s.waitX := rfl
@[simp] theorem advancePc_waitPrev (s : State) : (advancePc s).waitPrev = s.waitPrev := rfl
@[simp] theorem advancePc_halt (s : State) : (advancePc s).halt = s.halt := rfl
@[simp] theorem advancePc_draws (s : State) : (advancePc s).draws = s.draws := rfl
@[simp] theorem advancePc_schedule (s : State) : (advancePc s).schedule = s.schedule := rfl
@[simp] theorem advancePc_loadOpen (s : State) : (advancePc s).loadOpen = s.loadOpen := rfl
@[simp] theorem advancePc_result (s : State) : (advancePc s).result = s.result := rfl
@[simp] theorem advancePc_reports (s : State) : (advancePc s).reports = s.reports := rfl

/-! ### `raiseStackError` -/

@[simp] theorem raiseStackError_v (e : Halt) (s : State) : (raiseStackError e s).v = s.v := rfl
@[simp] theorem raiseStackError_ireg (e : Halt) (s : State) : (raiseStackError e s).ireg = s.ireg := rfl
@[simp] theorem raiseStackError_pc (e : Halt) (s : State) : (raiseStackError e s).pc = s.pc := rfl
@[simp] theorem raiseStackError_stack (e : Halt) (s : State) : (raiseStackError e s).stack = s.stack := rfl
@[simp] theorem raiseStackError_sp (e : Halt) (s : State) : (raiseStackError e s).sp = s.sp := rfl
@[simp] theorem raiseStackError_dt (e : Halt) (s : State) : (raiseStackError e s).dt = s.dt := rfl
@[simp] theorem raiseStackError_st (e : Halt) (s : State) : (raiseStackError e s).st = s.st := rfl
@[simp] theorem raiseStackError_fb (e : Halt) (s : State) : (raiseStackError e s).fb = s.fb := rfl
@[simp] theorem raiseStackError_key (e : Halt) (s : State) : (raiseStackError e s).key = s.key := rfl
@[simp] theorem raiseStackError_mem (e : Halt) (s : State) : (raiseStackError e s).mem = s.mem := rfl
@[simp] theorem raiseStackError_waiting (e : Halt) (s : State) : (raiseStackError e s).waiting = s.waiting := rfl
@[simp] theorem raiseStackError_waitX (e : Halt) (s : State) : (raiseStackError e s).waitX = s.waitX := rfl
@[simp] theorem raiseStackError_waitPrev (e : Halt) (s : State) : (raiseStackError e s).waitPrev = s.waitPrev := rfl
@[simp] theorem raiseStackError_halt (e : Halt) (s : State) : (raiseStackError e s).halt = e := rfl
@[simp] theorem raiseStackError_draws (e : Halt) (s : State) : (raiseStackError e s).draws = s.draws := rfl
@[simp] theorem raiseStackError_schedule (e : Halt) (s : State) : (raiseStackError e s).schedule = s.schedule := rfl
@[simp] theorem raiseStackError_loadOpen (e : Halt) (s : State) : (raiseStackError e s).loadOpen = s.loadOpen := rfl
@[simp] theorem raiseStackError_result (e : Halt) (s : State) : (raiseStackError e s).result = s.result := rfl
@[simp] theorem raiseStackError_reports (e : Halt) (s : State) : (raiseStackError e s).reports = s.reports := rfl

/-! ### `report` -/

@[simp] theorem report_v (r : Status) (s : State) : (report r s).v = s.v := rfl
@[simp] theorem report_ireg (r : Status) (s : State) : (report r s).ireg = s.ireg := rfl
@[simp] theorem report_pc (r : Status) (s : State) : (report r s).pc = s.pc := rfl
@[simp] theorem report_stack (r : Status) (s : State) : (report r s).stack = s.stack := rfl
@[simp] theorem report_sp (r : Status) (s : State) : (report r s).sp = s.sp := rfl
@[simp] theorem report_dt (r : Status) (s : State) : (report r s).dt = s.dt := rfl
@[simp] theorem report_st (r : Status) (s : State) : (report r s).st = s.st := rfl
@[simp] theorem report_fb (r : Status) (s : State) : (report r s).fb = s.fb := rfl
@[simp] theorem report_key (r : Status) (s : State) : (report r s).key = s.key := rfl
@[simp] theorem report_mem (r : Status) (s : State) : (report r s).mem = s.mem := rfl
@[simp] theorem report_waiting (r : Status) (s : State) : (report r s).waiting = s.waiting := rfl
@[simp] theorem report_waitX (r : Status) (s : State) : (report r s).waitX = s.waitX := rfl
@[simp] theorem report_waitPrev (r : Status) (s : State) : (report r s).waitPrev = s.waitPrev := rfl
@[simp] theorem report_halt (r : Status) (s : State) : (report r s).halt = s.halt := rfl
@[simp] theorem report_draws (r : Status) (s : State) : (report r s).draws = s.draws := rfl
@[simp] theorem report_schedule (r : Status) (s : State) : (report r s).schedule = s.schedule := rfl
@[simp] theorem report_loadOpen (r : Status) (s : State) : (report r s).loadOpen = false := rfl
@[simp] theorem report_result (r : Status) (s : State) : (report r s).result = .status r := rfl
@[simp] theorem report_reports (r : Status) (s : State) : (report r s).reports = s.reports := rfl

/-! ### Registers read after an update -/

@[simp] theorem getV_setV (s : State) (x z : Nibble) (b : Byte) : getV (setV s x b) z = if x = z then b else getV s z := by
  simp [getV, setV, Vector.getElem_set, BitVec.toNat_inj]

@[simp] theorem getV_setI (s : State) (a : Addr) (z : Nibble) : getV (setI s a) z = getV s z := rfl
@[simp] theorem getV_setPc (s : State) (a : Addr) (z : Nibble) : getV (setPc s a) z = getV s z := rfl
@[simp] theorem getV_advancePc (s : State) (z : Nibble) : getV (advancePc s) z = getV s z := rfl
@[simp] theorem getV_raiseStackError (e : Halt) (s : State) (z : Nibble) : getV (raiseStackError e s) z = getV s z := rfl
@[simp] theorem getV_report (r : Status) (s : State) (z : Nibble) : getV (report r s) z = getV s z := rfl

/-- Two states with the same registers read the same. -/
theorem getV_congr {s t : State} (h : t.v = s.v) (z : Nibble) : getV t z = getV s z := by simp [getV, h]

/-- Registers that read the same everywhere are the same registers. -/
theorem v_ext_of_getV {s t : State} (h : ∀ z, getV t z = getV s z) : t.v = s.v := by
  apply Vector.ext
  intro k hk
  have := h (BitVec.ofNat 4 k)
  simpa [getV, Nat.mod_eq_of_lt hk] using this

/-- `skip` moves the PC or does nothing (R126). -/
theorem skipIf_eq (c : Bool) (s : State) : skipIf c s = setPc s (if c then s.pc + 2 else s.pc) := by
  cases c <;> rfl

/-- A result and a flag write registers only. -/
theorem writeWithFlag_eq (s : State) (x : Nibble) (r : Byte) (c : Bool) :
    writeWithFlag s x r c = { s with v := (writeWithFlag s x r c).v } := rfl

/-- After a result and a flag: VF holds the flag, VX the result unless it is VF, and no other register changes (R172). -/
theorem getV_writeWithFlag (s : State) (x z : Nibble) (r : Byte) (c : Bool) :
    getV (writeWithFlag s x r c) z = if z = vf then flagByte c else if z = x then r else getV s z := by
  simp only [writeWithFlag, getV_setV, eq_comm]

end Sys2Proof.Machine
end

