-- ==== Sys2Proof/Certificates/Slice0/Obligations.lean ====
section
/-! DEFINITION. The statements for the provers. Each docstring names the rule of spec/ the statement comes from; a
statement that rests on a decision of spec/92_eei_decisions.md, on a [derived] rule or on a log entry of the model says so.

`s` is the state the instruction sees, with the post-fetch PC (R122). -/

open Sys2Proof Sys2Proof.Machine

/-! ### Encoding -/

/-- Words of spec/95_test_vectors.md (S4 to S6, S9, S10, T-C, T-A, T-M, T-K) decode to the instruction they stand for. -/
def Obligations.SampleWordsDecode : Prop :=
  decodeWord 0x00E0 = .ok .cls ∧ decodeWord 0x00EE = .ok .ret ∧ decodeWord 0x1234 = .ok (.jp 0x234) ∧
  decodeWord 0x2300 = .ok (.call 0x300) ∧ decodeWord 0x3A05 = .ok (.seImm 0xA 0x05) ∧
  decodeWord 0x6A2B = .ok (.ldImm 0xA 0x2B) ∧ decodeWord 0x8014 = .ok (.addReg 0x0 0x1) ∧
  decodeWord 0x8015 = .ok (.sub 0x0 0x1) ∧ decodeWord 0x9120 = .ok (.sneReg 0x1 0x2) ∧
  decodeWord 0xA2F0 = .ok (.ldI 0x2F0) ∧ decodeWord 0xC10F = .ok (.rnd 0x1 0x0F) ∧
  decodeWord 0xD125 = .ok (.drw 0x1 0x2 0x5) ∧ decodeWord 0xE19E = .ok (.skp 0x1) ∧
  decodeWord 0xF218 = .ok (.ldStVx 0x2) ∧ decodeWord 0xF355 = .ok (.ldMemVx 0x3) ∧
  decodeWord 0x5121 = .error (.unknownOpcode 0x5121) ∧ decodeWord 0x0000 = .error (.unknownOpcode 0x0000)

/-- The decoder reads every instruction back from its word, and from its two bytes in front of any others (R64, R90 to
R94). -/
def Obligations.DecodeInvertsEncode : Prop :=
  ∀ (i : Instr) (rest : List Byte),
    decodeWord (encode i) = .ok i ∧ decode (bytesOfWord (encode i) ++ rest) = .ok (i, rest)

/-- R98: the decoder answers an instruction with its field values (so that encoding it gives the word back) or
`Unknown(op)`. -/
def Obligations.DecodeIsTotal : Prop :=
  ∀ op : Word, (∃ i, decodeWord op = .ok i ∧ encode i = op) ∨ decodeWord op = .error (.unknownOpcode op)

/-- The decoder, which dispatches on nibbles, accepts exactly the words that `op AND mask = match` selects, and no two rows
of the table select one word (R94). -/
def Obligations.DecodeAgreesWithMaskAndMatch : Prop :=
  (∀ op : Word, (∃ i, decodeWord op = .ok i) ↔ wordWellFormed op = true) ∧
  (∀ r ∈ encodingRows, ∀ r' ∈ encodingRows, ∀ op : Word, r.selects op = true → r'.selects op = true → r = r')

/-- The unknown words are those of the family table of R95 (decision D14). -/
def Obligations.UnknownWordsAreTheFamilyTable : Prop :=
  ∀ op : Word, decodeWord op = .error (.unknownOpcode op) ↔
    (op.toNat / 0x1000 = 0x0 ∧ op.toNat % 0x1000 ≠ 0x0E0 ∧ op.toNat % 0x1000 ≠ 0x0EE) ∨
    (op.toNat / 0x1000 = 0x5 ∧ op.toNat % 0x10 ≠ 0) ∨
    (op.toNat / 0x1000 = 0x8 ∧ op.toNat % 0x10 ∈ [0x8, 0x9, 0xA, 0xB, 0xC, 0xD, 0xF]) ∨
    (op.toNat / 0x1000 = 0x9 ∧ op.toNat % 0x10 ≠ 0) ∨
    (op.toNat / 0x1000 = 0xE ∧ op.toNat % 0x100 ∉ [0x9E, 0xA1]) ∨
    (op.toNat / 0x1000 = 0xF ∧ op.toNat % 0x100 ∉ [0x07, 0x0A, 0x15, 0x18, 0x1E, 0x29, 0x33, 0x55, 0x65])

/-! ### Memory -/

/-- The canonical form of memory is one form: two memories that read the same at all 4096 addresses are the same data.
(The form is the model's own; log entry 7.) -/
def Obligations.EqualReadsMakeEqualMemories : Prop :=
  ∀ m m' : Memory, Memory.wf m = true → Memory.wf m' = true → (∀ a : Addr, memRead m a = memRead m' a) → m = m'

/-- R71 (with R194): a byte FX55 stores is seen by the very next fetch of its address, as the word's high byte at the PC and
as its low byte at PC + 1. -/
def Obligations.StoreIsSeenByTheNextFetch : Prop :=
  ∀ (s : State) (x : Nibble) (k : Nat), Memory.wf s.mem = true → k ≤ x.toNat →
    ∃ t, exec (.ldMemVx x) s = .next t ∧
      (s.pc = indexAddr s k → (fetch t).toNat / 0x100 = (getV s (blockReg k)).toNat) ∧
      (s.pc + 1 = indexAddr s k → (fetch t).toNat % 0x100 = (getV s (blockReg k)).toNat)

/-! ### The step -/

/-- R120 to R124, R64: when the gate is open and the two bytes at the PC decode to `i`, high byte first, a step is the
meaning of `i` on the state with the PC advanced by 2; around it the step only surfaces the status. `load` having no meaning
after a step, and `step` being what an empty schedule issues, are the model's conventions (log entries 3 and 4). -/
def Obligations.StepRunsTheDecodedInstruction : Prop :=
  ∀ (s t : State) (i : Instr), s.Running →
    decode [memRead s.mem s.pc, memRead s.mem (s.pc + 1)] = .ok (i, []) →
    exec i { s with pc := s.pc + 2 } = .next t →
    step s = .next { t with result := .status (haltStatus t.halt), loadOpen := false }

/-- R125 (decision D17): a word that matches no pattern advances the PC by 2, is reported with the word, and changes nothing
else. The history of reports is the model's own (log entry 5). -/
def Obligations.UnknownWordIsReportedAndSkipped : Prop :=
  ∀ (s : State) (op : Word), s.Running → op = wordOfBytes (memRead s.mem s.pc) (memRead s.mem (s.pc + 1)) →
    wordWellFormed op = false →
    step s = .next { s with
      pc := s.pc + 2, result := .status (.unknownOpcode op), reports := op :: s.reports, loadOpen := false }

/-- R129 (decision D15): a halted step changes nothing of the block's state and returns the latched kind. -/
def Obligations.HaltedStepChangesNothing : Prop :=
  ∀ s : State, s.schedule = [] →
    (s.halt = .stackOverflow → step s = .next { s with result := .status .stackOverflow, loadOpen := false }) ∧
    (s.halt = .stackUnderflow → step s = .next { s with result := .status .stackUnderflow, loadOpen := false })

/-- R234 (decision D12): while waiting, a step fetches nothing. If some key is down that was up at the previous look, the
least such key goes to `V[WAIT_X]`, the PC advances by 2 and the wait ends; otherwise the keys are remembered. -/
def Obligations.AwaitingStepTakesTheLeastNewKey : Prop :=
  ∀ s : State, s.schedule = [] → s.halt = .none → s.waiting = true →
    (∀ k : Nibble, keyDown s.key k = true → keyDown s.waitPrev k = false →
      (∀ j : Nibble, j.toNat < k.toNat → keyDown s.key j = true → keyDown s.waitPrev j = true) →
      step s = .next { setV s s.waitX (BitVec.ofNat 8 k.toNat) with
        pc := s.pc + 2, waiting := false, result := .status .ok, loadOpen := false }) ∧
    ((∀ k : Nibble, keyDown s.key k = true → keyDown s.waitPrev k = true) →
      step s = .next { s with waitPrev := s.key, result := .status .ok, loadOpen := false })

/-- R266, R267: a step performs the operation at the head of the schedule, whatever it is, and takes it off; a scheduled
`step` acts as a step on an empty schedule does. The schedule is the model's own (log entry 3). -/
def Obligations.StepPerformsTheScheduledOperation : Prop :=
  (∀ (s : State) (op : HostOp) (rest : List HostOp), s.schedule = op :: rest →
    step s = perform op { s with schedule := rest }) ∧
  (∀ (s t : State) (rest : List HostOp), step { s with schedule := [] } = .next t →
    step { s with schedule := .step :: rest } = .next { t with schedule := rest })

/-- R302 (decision D25), R141: a jump to its own address, executed, leaves every item of the block's state as it is; only the
model's own record of the step is written. -/
def Obligations.JumpToSelfIsAFixedPoint : Prop :=
  ∀ s : State, s.schedule = [] → s.ProgramEnded →
    step s = .next { s with result := .status .ok, loadOpen := false }

/-! ### Reset, load and the other host operations -/

/-- R32, R290, with the decisions D19 and D21 and log entries 1 and 7: the state after reset, item by item. -/
def Obligations.ResetStateValues : Prop :=
  (∀ x, getV State.reset x = 0) ∧ State.reset.ireg = 0 ∧ State.reset.pc.toNat = 0x200 ∧ State.reset.sp = 0 ∧
  (∀ d, d < 16 → State.reset.stack.getD d 1 = 0) ∧ State.reset.dt = 0 ∧ State.reset.st = 0 ∧
  (∀ x y, pixel State.reset.fb x y = false) ∧ (∀ k, keyDown State.reset.key k = false) ∧
  (∀ a : Addr, memRead State.reset.mem a =
    if 0x050 ≤ a.toNat ∧ a.toNat ≤ 0x09F then Config.font.getD (a.toNat - 0x050) 0 else 0) ∧
  State.reset.waiting = false ∧ State.reset.waitX = 0 ∧ State.reset.waitPrev = 0 ∧ State.reset.halt = .none

/-- R290 (decision D21): `machine_init` gives every item of the block its reset value whatever the state was, a wait and a
halt included. The draws, the rest of the schedule and the history of reports are the outside world's and go on (log entries
2, 3, 5). -/
def Obligations.MachineInitRestoresReset : Prop :=
  ∀ (s : State) (rest : List HostOp), s.schedule = .machineInit :: rest →
    step s = .next { State.reset with draws := s.draws, schedule := rest, reports := s.reports }

/-- R292 (decision D20): in its place, a `load` of at most 3584 bytes returns `Ok`, puts the bytes at 0x200 and up in order,
and changes nothing else. -/
def Obligations.LoadCopiesTheRom : Prop :=
  ∀ (s : State) (bytes : List Byte) (rest : List HostOp), s.schedule = .load bytes :: rest → s.loadOpen = true →
    Memory.wf s.mem = true → bytes.length ≤ 3584 →
    ∃ t, step s = .next t ∧ t.result = .loaded ∧
      (∀ (j : Nat) (h : j < bytes.length), memRead t.mem (BitVec.ofNat 12 (0x200 + j)) = bytes[j]) ∧
      (∀ a : Addr, (a.toNat < 0x200 ∨ 0x200 + bytes.length ≤ a.toNat) → memRead t.mem a = memRead s.mem a) ∧
      t = { s with mem := t.mem, schedule := rest, loadOpen := false, result := .loaded }

/-- R293, R254 (decision D20): in its place, a `load` of more than 3584 bytes is refused whole: it returns `CapacityError`
and memory is unchanged. -/
def Obligations.LoadTooLargeLeavesMemory : Prop :=
  ∀ (s : State) (bytes : List Byte) (rest : List HostOp), s.schedule = .load bytes :: rest → s.loadOpen = true →
    3584 < bytes.length →
    step s = .next { s with schedule := rest, loadOpen := false, result := .capacityError }

/-- R294 (decision D20, U14; log entry 4): a `load` after a step, or after another `load`, has no meaning until
`machine_init`: it is refused by name, whatever the step or the `load` before it was. -/
def Obligations.LoadOutOfOrderHasNoMeaning : Prop :=
  ∀ (s t : State) (op : HostOp) (bytes : List Byte) (rest : List HostOp),
    s.schedule = op :: .load bytes :: rest → step s = .next t → (op = .step ∨ ∃ rom, op = .load rom) →
    step t = .refused .loadOutOfOrder

/-- R261: a tick counts each timer down by 1, not below 0, and changes nothing else, in every state (R270). -/
def Obligations.TickCountsTheTimersDown : Prop :=
  ∀ (s : State) (rest : List HostOp), s.schedule = .tickTimers :: rest →
    ∃ t, step s = .next t ∧ t.dt.toNat = s.dt.toNat - 1 ∧ t.st.toNat = s.st.toNat - 1 ∧
      t = { s with dt := t.dt, st := t.st, schedule := rest, result := .done }

/-- R262: `is_sound_active` returns 1 exactly when ST > 0, and changes nothing. -/
def Obligations.SoundIsActiveWhileItsTimerRuns : Prop :=
  ∀ (s : State) (rest : List HostOp), s.schedule = .isSoundActive :: rest →
    step s = .next { s with schedule := rest, result := .sound (decide (0 < s.st.toNat)) }

/-- R264: `set_key` writes one key flag and changes nothing else, `WAIT` and `WAIT_PREV` included. -/
def Obligations.SetKeyWritesOneFlag : Prop :=
  ∀ (s : State) (k : Nibble) (pressed : Bool) (rest : List HostOp), s.schedule = .setKey k pressed :: rest →
    ∃ t, step s = .next t ∧ keyDown t.key k = pressed ∧ (∀ j, j ≠ k → keyDown t.key j = keyDown s.key j) ∧
      t = { s with key := t.key, schedule := rest, result := .done }

/-- R265: `snapshot_framebuffer` returns the pixels and changes nothing. -/
def Obligations.SnapshotReturnsThePixels : Prop :=
  ∀ (s : State) (rest : List HostOp), s.schedule = .snapshotFramebuffer :: rest →
    ∃ g, step s = .next { s with schedule := rest, result := .snapshot g } ∧ ∀ x y, pixel g x y = pixel s.fb x y

/-! ### Control transfer -/

/-- R141, 1NNN: `pc <- NNN`, for every NNN, odd ones and the jump's own address included; with it, the whole state is as
before when NNN was the address of the jump. -/
def Obligations.JumpSetsThePc : Prop :=
  ∀ (s : State) (nnn : Addr), decodeWord (formatA 0x1 nnn) = .ok (.jp nnn) ∧
    exec (.jp nnn) s = .next { s with pc := nnn } ∧ exec (.jp s.pc) (advancePc s) = .next s

/-- R142, 2NNN: below capacity the post-fetch PC is pushed and the PC is NNN; at capacity nothing changes but `HALT`. -/
def Obligations.CallPushesOrOverflows : Prop :=
  ∀ (s : State) (nnn : Addr), decodeWord (formatA 0x2 nnn) = .ok (.call nnn) ∧
    (∀ h : s.sp < 16, exec (.call nnn) s =
      .next { s with stack := s.stack.set s.sp (BitVec.ofNat 16 s.pc.toNat) h, sp := s.sp + 1, pc := nnn }) ∧
    (s.sp = 16 → exec (.call nnn) s = .next { s with halt := .stackOverflow })

/-- R140, 00EE: with 1 to 16 entries the depth falls by 1 and the PC is the top entry (an address, R24), the slots
keeping their contents; on an empty stack nothing changes but `HALT`. -/
def Obligations.ReturnPopsOrUnderflows : Prop :=
  ∀ s : State, decodeWord 0x00EE = .ok .ret ∧
    (0 < s.sp → s.sp ≤ 16 → ∃ t, exec .ret s = .next t ∧ t = { s with pc := t.pc, sp := s.sp - 1 } ∧
      t.pc.toNat = (s.stack.getD (s.sp - 1) 0).toNat % 0x1000) ∧
    (s.sp = 0 → exec .ret s = .next { s with halt := .stackUnderflow })

/-- R143, BNNN: `pc <- (NNN + V0) mod 0x1000` (the reduction is decision D2). -/
def Obligations.JumpWithOffset : Prop :=
  ∀ (s : State) (nnn : Addr), decodeWord (formatA 0xB nnn) = .ok (.jpV0 nnn) ∧
    exec (.jpV0 nnn) s = .next { s with pc := BitVec.ofNat 12 ((nnn.toNat + (getV s 0).toNat) % 0x1000) }

/-- R144, R145, 3XNN and 4XNN: skip if equal, if not equal, to the immediate. -/
def Obligations.SkipOnImmediate : Prop :=
  ∀ (s : State) (x : Nibble) (nn : Byte),
    decodeWord (formatX 0x3 x nn) = .ok (.seImm x nn) ∧ decodeWord (formatX 0x4 x nn) = .ok (.sneImm x nn) ∧
    exec (.seImm x nn) s = .next { s with pc := if getV s x = nn then s.pc + 2 else s.pc } ∧
    exec (.sneImm x nn) s = .next { s with pc := if getV s x = nn then s.pc else s.pc + 2 }

/-- R146, R147, 5XY0 and 9XY0: skip if the registers are equal, differ; with X = Y the one always skips and the other
never; a non-zero last nibble is no such instruction. -/
def Obligations.SkipOnRegisters : Prop :=
  ∀ (s : State) (x y n : Nibble),
    decodeWord (formatXY 0x5 x y 0) = .ok (.seReg x y) ∧ decodeWord (formatXY 0x9 x y 0) = .ok (.sneReg x y) ∧
    (n ≠ 0 → decodeWord (formatXY 0x5 x y n) = .error (.unknownOpcode (formatXY 0x5 x y n)) ∧
      decodeWord (formatXY 0x9 x y n) = .error (.unknownOpcode (formatXY 0x9 x y n))) ∧
    exec (.seReg x y) s = .next { s with pc := if getV s x = getV s y then s.pc + 2 else s.pc } ∧
    exec (.sneReg x y) s = .next { s with pc := if getV s x = getV s y then s.pc else s.pc + 2 }

/-- R148 (derived there, with conflict C4): whatever ran in between, a 00EE with the stack as the 2NNN left it resumes at the
2NNN's post-fetch PC, with the stack at its old depth. -/
def Obligations.ReturnResumesAfterTheCall : Prop :=
  ∀ (s u : State) (nnn : Addr), s.sp < 16 →
    ∃ t, exec (.call nnn) s = .next t ∧
      (u.sp = t.sp → u.stack = t.stack → exec .ret u = .next { u with pc := s.pc, sp := s.sp })

/-- R148, S7 (derived there, with conflict C4): 1 to 16 calls that the stack has room for, then as many returns, all
complete and end at the first call's post-fetch PC, with the stack at its old depth, its live slots as they were and
everything else untouched. -/
def Obligations.NestedCallsReturn : Prop :=
  ∀ (s : State) (targets : List Addr), targets ≠ [] → s.sp + targets.length ≤ 16 →
    ∃ t, runInstrs (targets.map .call ++ List.replicate targets.length .ret) s = .next t ∧
      t = { s with pc := s.pc + 2, stack := t.stack } ∧
      ∀ d, d < s.sp → t.stack.getD d 0 = s.stack.getD d 0

/-- R148, R251, S8 (decision D15): from an empty stack the 17th call in a row latches `StackOverflow`, with the PC at its
post-fetch value, and the stack stays at the 16 entries of the calls before it. -/
def Obligations.SeventeenthCallOverflows : Prop :=
  ∀ (s : State) (targets : List Addr) (last : Addr), s.sp = 0 → s.halt = .none → targets.length = 16 →
    ∃ t, runInstrs (targets.map .call) s = .next t ∧ t.halt = .none ∧ t.sp = 16 ∧
      runInstrs (targets.map .call ++ [.call last]) s = .next { t with pc := t.pc + 2, halt := .stackOverflow }

/-! ### Load, arithmetic, logic, shift, random -/

/-- R160, R162, 6XNN and 8XY0: the register receives the immediate, the other register; nothing else changes. -/
def Obligations.LoadRegister : Prop :=
  ∀ (s : State) (x y : Nibble) (nn : Byte),
    decodeWord (formatX 0x6 x nn) = .ok (.ldImm x nn) ∧ decodeWord (formatXY 0x8 x y 0x0) = .ok (.ldReg x y) ∧
    exec (.ldImm x nn) s = .next (setV s x nn) ∧ exec (.ldReg x y) s = .next (setV s x (getV s y)) ∧
    exec (.ldReg x x) s = .next s

/-- R161, 7XNN: the sum modulo 256; no carry is recorded anywhere. -/
def Obligations.AddImmediateWraps : Prop :=
  ∀ (s : State) (x : Nibble) (nn : Byte), decodeWord (formatX 0x7 x nn) = .ok (.addImm x nn) ∧
    exec (.addImm x nn) s = .next (setV s x (BitVec.ofNat 8 (((getV s x).toNat + nn.toNat) % 256)))

/-- R163 to R165, 8XY1 to 8XY3: bit by bit or, and, exclusive or of VX and VY into VX; no other register changes, VF
included unless it is VX. -/
def Obligations.LogicBitByBit : Prop :=
  ∀ (s : State) (x y : Nibble),
    decodeWord (formatXY 0x8 x y 0x1) = .ok (.or x y) ∧ decodeWord (formatXY 0x8 x y 0x2) = .ok (.and x y) ∧
    decodeWord (formatXY 0x8 x y 0x3) = .ok (.xor x y) ∧
    ∃ o a e : Byte, exec (.or x y) s = .next (setV s x o) ∧ exec (.and x y) s = .next (setV s x a) ∧
      exec (.xor x y) s = .next (setV s x e) ∧
      ∀ k, k < 8 → o.getLsbD k = ((getV s x).getLsbD k || (getV s y).getLsbD k) ∧
        a.getLsbD k = ((getV s x).getLsbD k && (getV s y).getLsbD k) ∧
        e.getLsbD k = ((getV s x).getLsbD k != (getV s y).getLsbD k)

/-- R166, 8XY4: VX is the sum modulo 256, then VF is 1 if the sum exceeds 255, else 0; both from the old registers. -/
def Obligations.AddSetsTheCarry : Prop :=
  ∀ (s : State) (x y : Nibble) (sum : Nat), sum = (getV s x).toNat + (getV s y).toNat →
    decodeWord (formatXY 0x8 x y 0x4) = .ok (.addReg x y) ∧
    exec (.addReg x y) s = .next (setV (setV s x (BitVec.ofNat 8 (sum % 256))) 0xF (if sum > 255 then 1 else 0))

/-- R167, R169, 8XY5 and 8XY7: VX − VY, VY − VX modulo 256, then VF is 1 if there was no borrow, else 0; both from the old
registers. That the flag is the later write where X = 0xF is decision D6. -/
def Obligations.SubtractSetsNotBorrow : Prop :=
  ∀ (s : State) (x y : Nibble) (p q : Nat), p = (getV s x).toNat → q = (getV s y).toNat →
    exec (.sub x y) s = .next (setV (setV s x (BitVec.ofNat 8 (if q ≤ p then p - q else p + 256 - q))) 0xF
      (if q ≤ p then 1 else 0)) ∧
    exec (.subn x y) s = .next (setV (setV s x (BitVec.ofNat 8 (if p ≤ q then q - p else q + 256 - p))) 0xF
      (if p ≤ q then 1 else 0))

/-- R168, R170, 8XY6 and 8XYE: VX halved, doubled modulo 256, then VF is the bit that went out; Y is ignored. That the flag is
the later write where X = 0xF is decision D6. -/
def Obligations.ShiftsMoveOneBitIntoTheFlag : Prop :=
  ∀ (s : State) (x y : Nibble) (p : Nat), p = (getV s x).toNat →
    exec (.shr x y) s = .next (setV (setV s x (BitVec.ofNat 8 (p / 2))) 0xF (BitVec.ofNat 8 (p % 2))) ∧
    exec (.shl x y) s = .next (setV (setV s x (BitVec.ofNat 8 (2 * p % 256))) 0xF (BitVec.ofNat 8 (p / 128)))

/-- R171 (decision D18; log entry 2), CXNN: for every byte drawn, VX has no bit outside NN, all of the drawn byte for
NN = 0xFF, and nothing else changes but the count of draws. -/
def Obligations.RandomStaysUnderItsMask : Prop :=
  ∀ (s : State) (x : Nibble) (nn : Byte),
    ∃ r : Byte, exec (.rnd x nn) s = .next { setV s x (r &&& nn) with draws := s.draws + 1 } ∧
      exec (.rnd x 0xFF) s = .next { setV s x r with draws := s.draws + 1 } ∧
      ∀ t, exec (.rnd x nn) s = .next t → getV t x &&& ~~~nn = 0

/-! ### Index register and memory -/

/-- R190, R191, ANNN and FX1E: `I <- NNN`; `I <- (I + VX) mod 0x1000`, VF not written. -/
def Obligations.IndexLoadAndAdd : Prop :=
  ∀ (s : State) (x : Nibble) (nnn : Addr),
    decodeWord (formatA 0xA nnn) = .ok (.ldI nnn) ∧ decodeWord (formatX 0xF x 0x1E) = .ok (.addI x) ∧
    exec (.ldI nnn) s = .next { s with ireg := nnn } ∧
    exec (.addI x) s = .next { s with ireg := BitVec.ofNat 12 ((s.ireg.toNat + (getV s x).toNat) % 0x1000) }

/-- R192 (decision D23), FX29: `I <- 0x050 + 5 * VX` with the whole byte VX, without a wrap. -/
def Obligations.GlyphAddress : Prop :=
  ∀ (s : State) (x : Nibble),
    ∃ t, exec (.ldF x) s = .next t ∧ t.ireg.toNat = 0x050 + 5 * (getV s x).toNat ∧ t = { s with ireg := t.ireg }

/-- R193, with the address wrap of R63 (decision D3), FX33: the hundreds, tens and ones of VX go to I, I+1 and I+2, and
every other byte and all other state are unchanged. -/
def Obligations.DecimalDigitsAreStored : Prop :=
  ∀ (s : State) (x : Nibble), Memory.wf s.mem = true →
    ∃ t, exec (.ldB x) s = .next t ∧ t = { s with mem := t.mem } ∧
      (memRead t.mem s.ireg).toNat = (getV s x).toNat / 100 ∧
      (memRead t.mem (s.ireg + 1)).toNat = (getV s x).toNat / 10 % 10 ∧
      (memRead t.mem (s.ireg + 2)).toNat = (getV s x).toNat % 10 ∧
      ∀ a, a ≠ s.ireg → a ≠ s.ireg + 1 → a ≠ s.ireg + 2 → memRead t.mem a = memRead s.mem a

/-- R194 (decision D5), with the address wrap of R63 (decision D3), FX55: V0 to VX go to I, I+1, ..., I+X; every other byte
and all other state, I included, are unchanged. -/
def Obligations.RegisterBlockIsStored : Prop :=
  ∀ (s : State) (x : Nibble), Memory.wf s.mem = true →
    ∃ t, exec (.ldMemVx x) s = .next t ∧ t = { s with mem := t.mem } ∧
      (∀ k : Nibble, k.toNat ≤ x.toNat → memRead t.mem (s.ireg + BitVec.ofNat 12 k.toNat) = getV s k) ∧
      ∀ a, (∀ k, k ≤ x.toNat → a ≠ s.ireg + BitVec.ofNat 12 k) → memRead t.mem a = memRead s.mem a

/-- R195, with the address wrap of R63 (decision D3), FX65: V0 to VX come from I, I+1, ..., I+X; the registers above VX and
all other state, I included, are unchanged. -/
def Obligations.RegisterBlockIsLoaded : Prop :=
  ∀ (s : State) (x : Nibble),
    ∃ t, exec (.ldVxMem x) s = .next t ∧ t = { s with v := t.v } ∧
      ∀ k : Nibble, getV t k =
        if k.toNat ≤ x.toNat then memRead s.mem (s.ireg + BitVec.ofNat 12 k.toNat) else getV s k

/-! ### Display -/

/-- R211, 00E0: every pixel is 0 and nothing else changes, VF included. -/
def Obligations.ClearTurnsEveryPixelOff : Prop :=
  decodeWord 0x00E0 = .ok .cls ∧
  ∀ s : State, ∃ t, exec .cls s = .next t ∧ (∀ x y, pixel t.fb x y = false) ∧ t = { s with fb := t.fb }

/-- R212 (decisions D7, D8, D9), DXYN: after the draw every pixel is its old value XOR the sprite's bit there, round both
edges; VF is 1 if some pixel was lit under a 1 bit of the sprite, else 0; X and Y are read before VF is written; no other
register and no other state changes. -/
def Obligations.DrawXorsTheSprite : Prop :=
  ∀ (s : State) (x y n : Nibble) (x0 : BitVec 6) (y0 : BitVec 5),
    x0.toNat = (getV s x).toNat % 64 → y0.toNat = (getV s y).toNat % 32 →
    ∃ t, exec (.drw x y n) s = .next t ∧
      (∀ px py, pixel t.fb px py = (pixel s.fb px py != spriteCovers s n.toNat x0 y0 px py)) ∧
      ((∃ px py, pixel s.fb px py = true ∧ spriteCovers s n.toNat x0 y0 px py = true) → getV t 0xF = 1) ∧
      ((∀ px py, pixel s.fb px py = true → spriteCovers s n.toNat x0 y0 px py = false) → getV t 0xF = 0) ∧
      (∀ z, z ≠ 0xF → getV t z = getV s z) ∧ t = { s with v := t.v, fb := t.fb }

/-- S9 (R212): the same sprite drawn twice at the same coordinates leaves the framebuffer as it was, and the second draw
collides if the first found none of its pixels lit and drew at least one. X and Y are not VF here, since the first draw
writes it: with X or Y = 0xF the second draw may be elsewhere (`DrawXorsTheSprite` covers that form). -/
def Obligations.DrawingTwiceErases : Prop :=
  ∀ (s : State) (x y n : Nibble), x ≠ 0xF → y ≠ 0xF →
    ∃ t u, exec (.drw x y n) s = .next t ∧ exec (.drw x y n) t = .next u ∧ u.fb = s.fb ∧
      (getV t 0xF = 0 → t.fb ≠ s.fb → getV u 0xF = 1)

/-! ### Keys and timers -/

/-- R230, R231, EX9E and EXA1: skip if the key that the low four bits of VX name is down, is up (decision D11 for a value above
0x0F). -/
def Obligations.SkipOnKey : Prop :=
  ∀ (s : State) (x k : Nibble), k.toNat = (getV s x).toNat % 16 →
    exec (.skp x) s = .next { s with pc := if keyDown s.key k = true then s.pc + 2 else s.pc } ∧
    exec (.sknp x) s = .next { s with pc := if keyDown s.key k = true then s.pc else s.pc + 2 }

/-- R232, R235, FX07 and FX15 (and FX18, R236): VX receives DT; DT, ST receive VX; nothing else changes. -/
def Obligations.TimerMoves : Prop :=
  ∀ (s : State) (x : Nibble),
    decodeWord (formatX 0xF x 0x07) = .ok (.ldVxDt x) ∧ decodeWord (formatX 0xF x 0x15) = .ok (.ldDtVx x) ∧
    decodeWord (formatX 0xF x 0x18) = .ok (.ldStVx x) ∧
    exec (.ldVxDt x) s = .next (setV s x s.dt) ∧ exec (.ldDtVx x) s = .next { s with dt := getV s x } ∧
    exec (.ldStVx x) s = .next { s with st := getV s x }

/-- R233 (decisions D12, D13), FX0A: the step that fetches it only enters the wait: the register and the keys are
remembered, the PC is back on the FX0A, and nothing else changes, VX included. -/
def Obligations.KeyWaitBegins : Prop :=
  ∀ (s : State) (x : Nibble), exec (.ldVxK x) (advancePc s) =
    .next { s with waiting := true, waitX := x, waitPrev := s.key, pc := s.pc }

/-! ### Rules about the whole machine -/

/-- R250 "No other condition is an error", R256: every instruction answers a next state in every state. -/
def Obligations.EveryInstructionHasANextState : Prop := ∀ (i : Instr) (s : State), ∃ t, exec i s = .next t

/-- R250, R266, U14: a step answers a next state in every state, but for the one refusal of a `load` out of order (log
entry 4). -/
def Obligations.StepStopsOnlyOnLoadOutOfOrder : Prop :=
  ∀ s : State, (∃ t, step s = .next t) ∨
    (step s = .refused .loadOutOfOrder ∧ s.loadOpen = false ∧ ∃ bytes rest, s.schedule = .load bytes :: rest)

/-- The invariant holds after reset (R32). -/
def Obligations.ResetMeetsTheInvariant : Prop := State.reset.Inv

/-- Every step keeps the invariant, from every state that meets it and for every operation of the host: memory stays
canonical, "size never exceeds capacity" and live slots stay addresses (R24), a halted engine does not wait (R120), and only
unknown words are reported (R125). -/
def Obligations.StepKeepsTheInvariant : Prop := ∀ s t : State, s.Inv → step s = .next t → t.Inv

/-- R32, R34, R8 (decision D5): an instruction changes no register but the ones the spec says it writes: VX, VF beside it for
the six flag writers, V0 to VX for FX65. -/
def Obligations.RegistersKeptByInstructions : Prop :=
  ∀ (i : Instr) (s t : State) (z : Nibble), exec i s = .next t → writesV i z = false → getV t z = getV s z

/-- R72, R66, R8 (decision D5): an instruction changes no byte of memory but the three bytes of FX33 and the X + 1 bytes of
FX55, from I up; every other instruction changes none. -/
def Obligations.MemoryKeptOutsideTheStoredBytes : Prop :=
  ∀ (i : Instr) (s t : State) (a : Addr), exec i s = .next t →
    (∀ k, k < storedBytes i → a ≠ indexAddr s k) → memRead t.mem a = memRead s.mem a

/-- R32, the column "written by", R8 (decision D5): what no instruction but the named ones changes: the framebuffer (00E0,
DXYN), the keys (none), DT (FX15), ST (FX18), I (ANNN, FX1E, FX29), the stack (2NNN, 00EE; slots 2NNN only), the wait (FX0A),
`HALT` (2NNN, 00EE), the PC (control transfer); and no instruction changes the model's own fields but CXNN its draws. -/
def Obligations.OtherStateKeptByInstructions : Prop :=
  ∀ (i : Instr) (s t : State), exec i s = .next t →
    ((i ≠ .cls ∧ ∀ x y n, i ≠ .drw x y n) → t.fb = s.fb) ∧ t.key = s.key ∧
    ((∀ x, i ≠ .ldDtVx x) → t.dt = s.dt) ∧ ((∀ x, i ≠ .ldStVx x) → t.st = s.st) ∧
    ((∀ nnn, i ≠ .ldI nnn) → (∀ x, i ≠ .addI x) → (∀ x, i ≠ .ldF x) → t.ireg = s.ireg) ∧
    ((∀ nnn, i ≠ .call nnn) → t.stack = s.stack ∧ (i ≠ .ret → t.sp = s.sp ∧ t.halt = s.halt)) ∧
    ((∀ x, i ≠ .ldVxK x) → t.waiting = s.waiting ∧ t.waitX = s.waitX ∧ t.waitPrev = s.waitPrev) ∧
    (movesPc i = false → t.pc = s.pc) ∧
    ((∀ x nn, i ≠ .rnd x nn) → t.draws = s.draws) ∧
    t.schedule = s.schedule ∧ t.loadOpen = s.loadOpen ∧ t.result = s.result ∧ t.reports = s.reports

/-- R258, R30 (decision D15): a step leaves the halted state only by `machine_init`. -/
def Obligations.OnlyMachineInitEndsAHalt : Prop :=
  ∀ s t : State, s.halt ≠ .none → step s = .next t → t.halt ≠ s.halt → ∃ rest, s.schedule = .machineInit :: rest

/-- R234, R269 (decision D12): a wait ends only by `machine_init`, or by an awaiting step that finds a key down that was up
at the previous look. -/
def Obligations.OnlyANewKeyEndsAWait : Prop :=
  ∀ s t : State, s.Inv → s.waiting = true → step s = .next t → t.waiting = false →
    (∃ rest, s.schedule = .machineInit :: rest) ∨
    ∃ k, keyDown s.key k = true ∧ keyDown s.waitPrev k = false ∧ getV t s.waitX = BitVec.ofNat 8 k.toNat

/-- R25, R33: no instruction reads ST: two states that differ only in ST stay so, but for FX18, after which they are the
same. -/
def Obligations.SoundTimerCannotBeRead : Prop :=
  ∀ (i : Instr) (s t : State) (b : Byte), exec i s = .next t →
    ((∃ x, i = .ldStVx x) → exec i { s with st := b } = .next t) ∧
    ((∀ x, i ≠ .ldStVx x) → exec i { s with st := b } = .next { t with st := b })

/-- R27, R32: no instruction but EX9E, EXA1 and FX0A reads the keys: for the others two states that differ only in the keys
stay so. -/
def Obligations.KeysReadOnlyByKeyInstructions : Prop :=
  ∀ (i : Instr) (s t : State) (keys : BitVec 16), (∀ x, i ≠ .skp x ∧ i ≠ .sknp x ∧ i ≠ .ldVxK x) →
    exec i s = .next t → exec i { s with key := keys } = .next { t with key := keys }
end

