-- ==== Sys2Proof/Laws/Decode.lean ====
section
/-! SUPPORT. What each field of R91 reads from a word of each format of R92, and what the two bytes of a word are. -/

namespace Sys2Proof

/-! ### Fields of a format word -/

@[simp] theorem fieldN1_formatA (n : Nibble) (a : Addr) : fieldN1 (formatA n a) = n := by
  ext i hi
  interval_cases i <;> simp [fieldN1, formatA, BitVec.getLsbD_eq_getElem]
@[simp] theorem fieldN1_formatX (n x : Nibble) (b : Byte) : fieldN1 (formatX n x b) = n := by
  ext i hi
  interval_cases i <;> simp [fieldN1, formatX, BitVec.getLsbD_eq_getElem]
@[simp] theorem fieldN1_formatXY (n x y k : Nibble) : fieldN1 (formatXY n x y k) = n := by
  ext i hi
  interval_cases i <;> simp [fieldN1, formatXY, BitVec.getLsbD_eq_getElem]
@[simp] theorem fieldNNN_formatA (n : Nibble) (a : Addr) : fieldNNN (formatA n a) = a := by
  ext i hi
  interval_cases i <;> simp [fieldNNN, formatA, BitVec.getLsbD_eq_getElem]
@[simp] theorem fieldX_formatX (n x : Nibble) (b : Byte) : fieldX (formatX n x b) = x := by
  ext i hi
  interval_cases i <;> simp [fieldX, formatX, BitVec.getLsbD_eq_getElem]
@[simp] theorem fieldX_formatXY (n x y k : Nibble) : fieldX (formatXY n x y k) = x := by
  ext i hi
  interval_cases i <;> simp [fieldX, formatXY, BitVec.getLsbD_eq_getElem]
@[simp] theorem fieldNN_formatX (n x : Nibble) (b : Byte) : fieldNN (formatX n x b) = b := by
  ext i hi
  interval_cases i <;> simp [fieldNN, formatX, BitVec.getLsbD_eq_getElem]
@[simp] theorem fieldY_formatXY (n x y k : Nibble) : fieldY (formatXY n x y k) = y := by
  ext i hi
  interval_cases i <;> simp [fieldY, formatXY, BitVec.getLsbD_eq_getElem]
@[simp] theorem fieldN_formatXY (n x y k : Nibble) : fieldN (formatXY n x y k) = k := by
  ext i hi
  interval_cases i <;> simp [fieldN, formatXY, BitVec.getLsbD_eq_getElem]

/-! ### Every word is the format word of its fields -/

theorem formatA_fields (op : Word) : formatA (fieldN1 op) (fieldNNN op) = op := by
  ext i hi
  interval_cases i <;> simp [formatA, fieldN1, fieldNNN, BitVec.getLsbD_eq_getElem]

theorem formatX_fields (op : Word) : formatX (fieldN1 op) (fieldX op) (fieldNN op) = op := by
  ext i hi
  interval_cases i <;> simp [formatX, fieldN1, fieldX, fieldNN, BitVec.getLsbD_eq_getElem]

theorem formatXY_fields (op : Word) : formatXY (fieldN1 op) (fieldX op) (fieldY op) (fieldN op) = op := by
  ext i hi
  interval_cases i <;> simp [formatXY, fieldN1, fieldX, fieldY, fieldN, BitVec.getLsbD_eq_getElem]

/-! ### Bytes of a word (R64) -/

@[simp] theorem wordOfBytes_bytes (op : Word) : wordOfBytes (highByte op) (lowByte op) = op := by
  ext i hi
  interval_cases i <;> simp [wordOfBytes, highByte, lowByte, BitVec.getLsbD_eq_getElem]

@[simp] theorem highByte_wordOfBytes (hi lo : Byte) : highByte (wordOfBytes hi lo) = hi := by
  ext i h
  interval_cases i <;> simp [wordOfBytes, highByte, BitVec.getLsbD_eq_getElem]

@[simp] theorem lowByte_wordOfBytes (hi lo : Byte) : lowByte (wordOfBytes hi lo) = lo := by
  ext i h
  interval_cases i <;> simp [wordOfBytes, lowByte, BitVec.getLsbD_eq_getElem]

/-- Decoding two bytes is decoding the word they make (R64, R90). -/
theorem decode_pair (hi lo : Byte) (rest : List Byte) :
    decode (hi :: lo :: rest) = (decodeWord (wordOfBytes hi lo)).map (·, rest) := rfl

end Sys2Proof
end

