-- ==== Sys2Proof/Laws/Memory.lean ====
section
/-! SUPPORT. The laws of memory: a read after a write, and every memory operation keeps the canonical form. -/

namespace Sys2Proof.Machine

/-! ### The canonical form -/

theorem Memory.wfFrom_cons {lo a : Nat} {b : Byte} {m : Memory} :
    Memory.wfFrom lo ((a, b) :: m) = true ↔
      lo ≤ a ∧ a < Config.memSize ∧ b ≠ resetByte a ∧ Memory.wfFrom (a + 1) m = true := by
  simp [Memory.wfFrom, and_assoc]

/-- The form from an address up holds from any lower address up. -/
theorem Memory.wfFrom_mono {lo lo' : Nat} {m : Memory} (h : lo' ≤ lo) (hm : Memory.wfFrom lo m = true) :
    Memory.wfFrom lo' m = true := by
  cases m with
  | nil => rfl
  | cons c m =>
    obtain ⟨a, b⟩ := c
    rw [Memory.wfFrom_cons] at hm ⊢
    exact ⟨h.trans hm.1, hm.2⟩

/-- Below the first listed address everything reads as its reset contents. -/
theorem cellAt_of_lt {lo a : Nat} {m : Memory} (hm : Memory.wfFrom lo m = true) (h : a < lo) :
    cellAt m a = resetByte a := by
  induction m generalizing lo with
  | nil => rfl
  | cons c m ih =>
    obtain ⟨k, b⟩ := c
    rw [Memory.wfFrom_cons] at hm
    rw [cellAt, if_neg (by omega)]
    exact ih hm.2.2.2 (by omega)

theorem wfFrom_consCell {lo a : Nat} {b : Byte} {m : Memory} (hlo : lo ≤ a) (ha : a < Config.memSize)
    (hm : Memory.wfFrom (a + 1) m = true) : Memory.wfFrom lo (consCell a b m) = true := by
  unfold consCell
  split
  · exact Memory.wfFrom_mono (by omega) hm
  · exact Memory.wfFrom_cons.2 ⟨hlo, ha, ‹_›, hm⟩

/-- Writing a cell keeps the canonical form. -/
theorem wfFrom_putCell {lo a : Nat} {b : Byte} {m : Memory} (hlo : lo ≤ a) (ha : a < Config.memSize)
    (hm : Memory.wfFrom lo m = true) : Memory.wfFrom lo (putCell m a b) = true := by
  induction m generalizing lo with
  | nil => exact wfFrom_consCell hlo ha rfl
  | cons c m ih =>
    obtain ⟨k, d⟩ := c
    obtain ⟨h1, h2, h3, h4⟩ := Memory.wfFrom_cons.1 hm
    unfold putCell
    split
    · exact wfFrom_consCell hlo ha (Memory.wfFrom_cons.2 ⟨by omega, h2, h3, h4⟩)
    · split
      · subst k
        exact wfFrom_consCell hlo ha h4
      · exact Memory.wfFrom_cons.2 ⟨h1, h2, h3, ih (by omega) h4⟩

/-- `MemWrite` keeps the canonical form. -/
theorem wf_memWrite {m : Memory} (hm : Memory.wf m = true) (a : Addr) (b : Byte) : Memory.wf (memWrite m a b) = true :=
  wfFrom_putCell (Nat.zero_le _) a.isLt hm

/-- A sequence of writes keeps the canonical form. -/
theorem wf_foldl_memWrite {m : Memory} (hm : Memory.wf m = true) (ks : List Nat) (addr : Nat → Addr) (val : Nat → Byte) :
    Memory.wf (ks.foldl (fun m k => memWrite m (addr k) (val k)) m) = true := by
  induction ks generalizing m with
  | nil => exact hm
  | cons k ks ih => exact ih (wf_memWrite hm _ _)

theorem wf_storeBlock {s : State} (hm : Memory.wf s.mem = true) (x : Nibble) : Memory.wf (storeBlock s x) = true :=
  wf_foldl_memWrite hm _ _ _

theorem wf_storeDigits {s : State} (hm : Memory.wf s.mem = true) (a : Byte) : Memory.wf (storeDigits s a) = true :=
  wf_memWrite (wf_memWrite (wf_memWrite hm _ _) _ _) _ _

/-- Copying a ROM that fits keeps the canonical form. -/
theorem wf_copyBytes {m : Memory} (hm : Memory.wf m = true) (base : Nat) (bytes : List Byte)
    (h : base + bytes.length ≤ Config.memSize) : Memory.wf (copyBytes m base bytes) = true := by
  induction bytes generalizing base with
  | nil => exact hm
  | cons b bytes ih =>
    simp only [List.length_cons] at h
    exact wfFrom_putCell (Nat.zero_le _) (by omega) (ih (base + 1) (by omega))

/-! ### Reading back -/

@[simp] theorem cellAt_consCell_ne {a c : Nat} (b : Byte) (m : Memory) (h : a ≠ c) :
    cellAt (consCell a b m) c = cellAt m c := by
  unfold consCell
  split
  · rfl
  · rw [cellAt, if_neg h]

/-- A write leaves every other cell alone, whatever the memory. -/
theorem cellAt_putCell_ne (m : Memory) {a c : Nat} (b : Byte) (h : c ≠ a) : cellAt (putCell m a b) c = cellAt m c := by
  induction m with
  | nil => exact cellAt_consCell_ne b [] h.symm
  | cons k m ih =>
    obtain ⟨k, d⟩ := k
    unfold putCell
    split
    · exact cellAt_consCell_ne b _ h.symm
    · split
      · subst k
        rw [cellAt_consCell_ne b _ h.symm, cellAt, if_neg h.symm]
      · simp only [cellAt, ih]

theorem cellAt_consCell_self {lo a : Nat} (b : Byte) {m : Memory} (hm : Memory.wfFrom lo m = true) (h : a < lo) :
    cellAt (consCell a b m) a = b := by
  unfold consCell
  split
  · rw [cellAt_of_lt hm h, ‹b = _›]
  · rw [cellAt, if_pos rfl]

/-- A read after a write to the same cell gives the value written. -/
theorem cellAt_putCell_self {lo a : Nat} (b : Byte) {m : Memory} (hm : Memory.wfFrom lo m = true) :
    cellAt (putCell m a b) a = b := by
  induction m generalizing lo with
  | nil => exact cellAt_consCell_self b (lo := a + 1) rfl (by omega)
  | cons c m ih =>
    obtain ⟨k, d⟩ := c
    obtain ⟨h1, h2, h3, h4⟩ := Memory.wfFrom_cons.1 hm
    unfold putCell
    split
    · exact cellAt_consCell_self b (lo := k) (Memory.wfFrom_cons.2 ⟨le_refl _, h2, h3, h4⟩) ‹_›
    · split
      · subst k
        exact cellAt_consCell_self b h4 (by omega)
      · rw [cellAt, if_neg (by omega)]
        exact ih h4

theorem memRead_memWrite_self {m : Memory} (hm : Memory.wf m = true) (a : Addr) (b : Byte) :
    memRead (memWrite m a b) a = b :=
  cellAt_putCell_self b hm

theorem memRead_memWrite_ne (m : Memory) {a c : Addr} (b : Byte) (h : c ≠ a) :
    memRead (memWrite m a b) c = memRead m c :=
  cellAt_putCell_ne m b (fun e => h (BitVec.eq_of_toNat_eq e))

/-- A cell outside a copied byte string keeps its value. -/
theorem cellAt_copyBytes_outside (m : Memory) (base : Nat) (bytes : List Byte) {c : Nat}
    (h : c < base ∨ base + bytes.length ≤ c) : cellAt (copyBytes m base bytes) c = cellAt m c := by
  induction bytes generalizing base with
  | nil => rfl
  | cons b bytes ih =>
    simp only [List.length_cons] at h
    rw [copyBytes, cellAt_putCell_ne _ _ (by omega), ih (base + 1) (by omega)]

/-- A cell of a copied byte string holds its byte. -/
theorem cellAt_copyBytes_inside {m : Memory} (hm : Memory.wf m = true) (base : Nat) (bytes : List Byte)
    (hfit : base + bytes.length ≤ Config.memSize) {j : Nat} (hj : j < bytes.length) :
    cellAt (copyBytes m base bytes) (base + j) = bytes[j] := by
  induction bytes generalizing base j with
  | nil => simp at hj
  | cons b bytes ih =>
    simp only [List.length_cons] at hfit hj
    cases j with
    | zero => exact cellAt_putCell_self b (wf_copyBytes hm (base + 1) bytes (by omega))
    | succ j =>
      rw [copyBytes, cellAt_putCell_ne _ _ (by omega), show base + (j + 1) = base + 1 + j by omega,
        ih (base + 1) (by omega) (by omega)]
      rfl

end Sys2Proof.Machine
end

