-- ==== Sys2Proof/Laws/Ops.lean ====
section
/-! SUPPORT. One lemma per shared operation that says everything it does: the call stack, register blocks, pixels, keys and
the timers. -/

namespace Sys2Proof.Machine

/-! ### Call stack (R24) -/

/-- `push` below capacity. -/
theorem push_of_lt {s : State} (w : Word) (h : s.sp < 16) :
    push w s = some { s with stack := s.stack.set s.sp w h, sp := s.sp + 1 } := dif_pos h

/-- `push` on a full stack. -/
theorem push_of_full {s : State} (w : Word) (h : 16 ≤ s.sp) : push w s = none := dif_neg (by omega)

/-- All a successful `push` can have done. -/
theorem push_cases {s t : State} {w : Word} (h : push w s = some t) :
    ∃ hs : s.sp < 16, t = { s with stack := s.stack.set s.sp w hs, sp := s.sp + 1 } := by
  unfold push at h
  split at h
  · exact ⟨‹_›, (Option.some.inj h).symm⟩
  · cases h

/-- `pop` on an empty stack. -/
theorem pop_of_empty {s : State} (h : s.sp = 0) : pop s = none := by simp [pop, h]

/-- `pop` on a stack that holds something. -/
theorem pop_of_pos {s : State} {d : Nat} (h : s.sp = d + 1) : pop s = some (s.stack.getD d 0, { s with sp := d }) := by
  simp [pop, h]

/-- All a successful `pop` can have done. -/
theorem pop_cases {s t : State} {w : Word} (h : pop s = some (w, t)) :
    ∃ d, s.sp = d + 1 ∧ w = s.stack.getD d 0 ∧ t = { s with sp := d } := by
  unfold pop at h
  split at h
  · cases h
  · rename_i d hd
    cases h
    exact ⟨d, hd, rfl, rfl⟩

/-- A slot after a write to a slot. -/
theorem slot_set (st : Vector Word 16) {d e : Nat} (w x : Word) (hd : d < 16) :
    (st.set d w hd).getD e x = if d = e then w else st.getD e x := by
  by_cases he : e < 16
  · simp [Vector.getD, he, Array.getElem_set]
  · have : d ≠ e := by omega
    simp [Vector.getD, he, this]

/-! ### Addresses from I (R63) -/

/-- Offsets below 4096 reach different addresses. -/
theorem indexAddr_inj {s : State} {j k : Nat} (hj : j < 4096) (hk : k < 4096) (h : indexAddr s j = indexAddr s k) :
    j = k := by
  have h : BitVec.ofNat 12 j = BitVec.ofNat 12 k := by simpa [indexAddr] using h
  have := congrArg BitVec.toNat h
  simpa [Nat.mod_eq_of_lt hj, Nat.mod_eq_of_lt hk] using this

/-- A sequence of writes leaves an address none of them goes to alone. -/
theorem memRead_foldl_outside {m : Memory} (ks : List Nat) (addr : Nat → Addr) (val : Nat → Byte) {a : Addr}
    (h : ∀ k ∈ ks, a ≠ addr k) : memRead (ks.foldl (fun m k => memWrite m (addr k) (val k)) m) a = memRead m a := by
  induction ks generalizing m with
  | nil => rfl
  | cons k ks ih =>
    rw [List.foldl_cons, ih fun j hj => h j (List.mem_cons_of_mem _ hj), memRead_memWrite_ne _ _ (h k List.mem_cons_self)]

/-- The bytes FX55 does not store (R194). -/
theorem memRead_storeBlock_outside (s : State) (x : Nibble) {a : Addr} (h : ∀ k, k ≤ x.toNat → a ≠ indexAddr s k) :
    memRead (storeBlock s x) a = memRead s.mem a :=
  memRead_foldl_outside _ (indexAddr s) (fun k => getV s (blockReg k))
    fun k hk => h k (by simp only [blockOffsets, List.mem_range] at hk; omega)

/-- The bytes FX55 stores (R194). -/
theorem memRead_storeBlock_inside {s : State} (hm : Memory.wf s.mem = true) (x : Nibble) {k : Nat} (hk : k ≤ x.toNat) :
    memRead (storeBlock s x) (indexAddr s k) = getV s (blockReg k) := by
  have hx := x.isLt
  suffices ∀ n, n ≤ 16 → k < n → memRead ((List.range n).foldl
      (fun m k => memWrite m (indexAddr s k) (getV s (blockReg k))) s.mem) (indexAddr s k) = getV s (blockReg k) from
    this _ (by omega) (by omega)
  intro n
  induction n with
  | zero => intro _ h; omega
  | succ n ih =>
    intro hn hkn
    rw [List.range_succ, List.foldl_append, List.foldl_cons, List.foldl_nil]
    by_cases h : k = n
    · subst h
      exact memRead_memWrite_self (wf_foldl_memWrite hm _ (indexAddr s) fun k => getV s (blockReg k)) _ _
    · rw [memRead_memWrite_ne _ _ fun e => h (indexAddr_inj (by omega) (by omega) e)]
      exact ih (by omega) (by omega)

/-- FX65 changes registers only (R195). -/
theorem loadBlock_eq (s : State) (x : Nibble) : loadBlock s x = { s with v := (loadBlock s x).v } := by
  suffices ∀ (ks : List Nat) (t : State), t = { s with v := t.v } →
      ks.foldl (fun t k => setV t (blockReg k) (memRead s.mem (indexAddr s k))) t =
        { s with v := (ks.foldl (fun t k => setV t (blockReg k) (memRead s.mem (indexAddr s k))) t).v } from
    this _ s rfl
  intro ks
  induction ks with
  | nil => exact fun t ht => ht
  | cons k ks ih =>
    intro t ht
    exact ih _ (by rw [ht]; rfl)

/-- The registers after FX65 (R195). -/
theorem getV_loadBlock (s : State) (x k : Nibble) :
    getV (loadBlock s x) k = if k.toNat ≤ x.toNat then memRead s.mem (indexAddr s k.toNat) else getV s k := by
  have hx := x.isLt
  suffices ∀ n, n ≤ 16 → getV ((List.range n).foldl
      (fun t k => setV t (blockReg k) (memRead s.mem (indexAddr s k))) s) k =
        if k.toNat < n then memRead s.mem (indexAddr s k.toNat) else getV s k by
    have := this (x.toNat + 1) (by omega)
    simp only [Nat.lt_succ_iff] at this
    exact this
  intro n
  induction n with
  | zero => intro _; rfl
  | succ n ih =>
    intro hn
    rw [List.range_succ, List.foldl_append, List.foldl_cons, List.foldl_nil, getV_setV, ih (by omega)]
    have hreg : blockReg n = k ↔ n = k.toNat := by
      constructor
      · intro h
        rw [← h, blockReg, BitVec.toNat_ofNat, Nat.mod_eq_of_lt (by omega)]
      · intro h
        rw [h, blockReg, BitVec.ofNat_toNat, BitVec.setWidth_eq]
    by_cases h : n = k.toNat
    · rw [if_pos (hreg.2 h), if_pos (by omega), h]
    · rw [if_neg fun e => h (hreg.1 e)]
      by_cases hlt : k.toNat < n
      · rw [if_pos hlt, if_pos (by omega)]
      · rw [if_neg hlt, if_neg (by omega)]

/-! ### Pixels (R210, R212) -/

/-- A flip turns one pixel over and no other. -/
theorem pixel_flipPixel (fb : Framebuffer) (x px : BitVec 6) (y py : BitVec 5) :
    pixel (flipPixel fb x y) px py = (pixel fb px py != decide (px = x ∧ py = y)) := by
  have hpx := px.isLt
  simp only [pixel, flipPixel, Vector.getElem_set]
  by_cases hy : y.toNat = py.toNat
  · have hy' : y = py := BitVec.eq_of_toNat_eq hy
    subst hy'
    simp only [if_true, BitVec.getLsbD_xor, BitVec.getLsbD_twoPow, and_true]
    by_cases hx : px = x
    · subst hx
      simp [hpx]
    · have : x.toNat ≠ px.toNat := fun e => hx (BitVec.eq_of_toNat_eq e.symm)
      simp [hx, this]
  · have : py ≠ y := fun e => hy (by rw [e])
    simp [hy, this]

@[simp] theorem pixel_blankFrame (x : BitVec 6) (y : BitVec 5) : pixel blankFrame x y = false := by
  simp [pixel, blankFrame]

/-- Two framebuffers with the same pixels are the same. -/
theorem framebuffer_ext {f g : Framebuffer} (h : ∀ x y, pixel f x y = pixel g x y) : f = g := by
  apply Vector.ext
  intro k hk
  apply BitVec.eq_of_getLsbD_eq
  intro j hj
  have := h (BitVec.ofNat 6 j) (BitVec.ofNat 5 k)
  simpa [pixel, Nat.mod_eq_of_lt hk, Nat.mod_eq_of_lt hj] using this

/-! ### Keys and timers -/

/-- `set_key` writes one flag (R264). -/
theorem keyDown_writeKey (keys : BitVec 16) (k j : Nibble) (pressed : Bool) :
    keyDown (writeKey keys k pressed) j = if j = k then pressed else keyDown keys j := by
  have hj : j.toNat < 16 := j.isLt
  simp only [keyDown, writeKey]
  by_cases h : j = k
  · subst h
    cases pressed <;> simp [hj]
  · have hne : j.toNat ≠ k.toNat := fun e => h (BitVec.eq_of_toNat_eq e)
    cases pressed <;> simp [h, hne, hj]

/-- A timer counts down to 0 and stays there (R261). -/
theorem toNat_countDown (t : Byte) : (countDown t).toNat = t.toNat - 1 := by
  unfold countDown
  split
  · subst t; rfl
  · bv_omega

/-- All the awaiting step can do (R234). -/
theorem awaitingStep_cases (s : State) :
    (∃ k, newlyPressed s.key s.waitPrev = some k ∧ keyDown s.key k = true ∧ keyDown s.waitPrev k = false ∧
      awaitingStep s = { setPc (setV s s.waitX (k.setWidth 8)) (s.pc + 2) with waiting := false }) ∨
    (newlyPressed s.key s.waitPrev = none ∧ awaitingStep s = { s with waitPrev := s.key }) := by
  unfold awaitingStep
  cases h : newlyPressed s.key s.waitPrev with
  | none => exact .inr ⟨rfl, rfl⟩
  | some k =>
    have := List.find?_some h
    simp only [Bool.and_eq_true, Bool.not_eq_true'] at this
    exact .inl ⟨k, rfl, this.1, this.2, rfl⟩

end Sys2Proof.Machine
end

