-- ==== Sys2Proof/Laws/Draw.lean ====
section
/-! SUPPORT. What drawing one sprite byte does, pixel by pixel (R212). -/

namespace Sys2Proof.Machine

/-- Column `x + n` is the one at distance `n` from column `x`, round the edge. -/
theorem column_eq_iff (x px : BitVec 6) {n : Nat} (hn : n < 64) : px = x + BitVec.ofNat 6 n ↔ (px - x).toNat = n := by
  constructor
  · rintro rfl
    rw [BitVec.add_comm, BitVec.add_sub_cancel, BitVec.toNat_ofNat, Nat.mod_eq_of_lt hn]
  · intro h
    subst h
    rw [BitVec.ofNat_toNat, BitVec.setWidth_eq, BitVec.add_comm, BitVec.sub_add_cancel]

/-- Row `y + n` is the one at distance `n` from row `y`, round the edge. -/
theorem row_eq_iff (y py : BitVec 5) {n : Nat} (hn : n < 32) : py = y + BitVec.ofNat 5 n ↔ (py - y).toNat = n := by
  constructor
  · rintro rfl
    rw [BitVec.add_comm, BitVec.add_sub_cancel, BitVec.toNat_ofNat, Nat.mod_eq_of_lt hn]
  · intro h
    subst h
    rw [BitVec.ofNat_toNat, BitVec.setWidth_eq, BitVec.add_comm, BitVec.sub_add_cancel]

/-- The first `n` columns of `drawRow`. -/
def drawColumns (b : Byte) (x : BitVec 6) (y : BitVec 5) (c : Canvas) (n : Nat) : Canvas :=
  (List.range n).foldl (fun c k => if b.getLsbD (7 - k) then drawPixel c (x + BitVec.ofNat 6 k) y else c) c

theorem drawRow_eq (b : Byte) (x : BitVec 6) (y : BitVec 5) (c : Canvas) : drawRow b x y c = drawColumns b x y c 8 := rfl

theorem drawColumns_succ (b : Byte) (x : BitVec 6) (y : BitVec 5) (c : Canvas) (n : Nat) :
    drawColumns b x y c (n + 1) = if b.getLsbD (7 - n) then
      drawPixel (drawColumns b x y c n) (x + BitVec.ofNat 6 n) y else drawColumns b x y c n := by
  simp [drawColumns, List.range_succ]

theorem pixel_drawColumns (b : Byte) (x px : BitVec 6) (y py : BitVec 5) (c : Canvas) {n : Nat} (hn : n ≤ 8) :
    pixel (drawColumns b x y c n).1 px py =
      (pixel c.1 px py != (decide (py = y) && decide ((px - x).toNat < n) && b.getLsbD (7 - (px - x).toNat))) := by
  induction n with
  | zero => simp [drawColumns]
  | succ n ih =>
    have ih := ih (by omega)
    have hcol := column_eq_iff x px (show n < 64 by omega)
    rw [drawColumns_succ]
    by_cases hp : (px - x).toNat = n
    · rw [hp] at ih ⊢
      split
      · simp [-BitVec.toNat_sub, drawPixel, pixel_flipPixel, *]
      · simp [*]
    · have hlt : decide ((px - x).toNat < n + 1) = decide ((px - x).toNat < n) := decide_eq_decide.2 (by omega)
      rw [hlt]
      split
      · simp [-BitVec.toNat_sub, drawPixel, pixel_flipPixel, ih, hcol, hp]
      · exact ih

theorem hit_drawColumns (b : Byte) (x : BitVec 6) (y : BitVec 5) (c : Canvas) {n : Nat} (hn : n ≤ 8) :
    (drawColumns b x y c n).2 = true ↔ c.2 = true ∨
      ∃ px, (px - x).toNat < n ∧ b.getLsbD (7 - (px - x).toNat) = true ∧ pixel c.1 px y = true := by
  induction n with
  | zero => simp [drawColumns]
  | succ n ih =>
    have ih := ih (by omega)
    have hcol := fun px => column_eq_iff x px (show n < 64 by omega)
    have hself := (hcol _).1 rfl
    rw [drawColumns_succ]
    split
    · rename_i hb
      rw [drawPixel, Bool.or_eq_true, ih, pixel_drawColumns b x _ y y c (by omega), hself]
      simp only [lt_irrefl, decide_false, Bool.and_false, Bool.false_and, Bool.bne_false]
      constructor
      · rintro ((h | ⟨px, h1, h2⟩) | h)
        · exact .inl h
        · exact .inr ⟨px, by omega, h2⟩
        · exact .inr ⟨_, by omega, by rw [hself]; exact hb, h⟩
      · rintro (h | ⟨px, h1, h2, h3⟩)
        · exact .inl (.inl h)
        · by_cases hp : (px - x).toNat = n
          · exact .inr ((hcol px).2 hp ▸ h3)
          · exact .inl (.inr ⟨px, by omega, h2, h3⟩)
    · rename_i hb
      rw [ih]
      refine or_congr Iff.rfl ⟨fun ⟨px, h1, h2⟩ => ⟨px, by omega, h2⟩, fun ⟨px, h1, h2⟩ => ⟨px, ?_, h2⟩⟩
      have : (px - x).toNat ≠ n := fun e => hb (e ▸ h2.1)
      omega

/-- One sprite byte turns over the pixels under its 1 bits, and no other (R212). -/
theorem pixel_drawRow (b : Byte) (x px : BitVec 6) (y py : BitVec 5) (c : Canvas) :
    pixel (drawRow b x y c).1 px py =
      (pixel c.1 px py != (decide (py = y) && decide ((px - x).toNat < 8) && b.getLsbD (7 - (px - x).toNat))) :=
  pixel_drawColumns b x px y py c (le_refl _)

/-- One sprite byte collides where a lit pixel was under one of its 1 bits (R212). -/
theorem hit_drawRow (b : Byte) (x : BitVec 6) (y : BitVec 5) (c : Canvas) :
    (drawRow b x y c).2 = true ↔ c.2 = true ∨
      ∃ px, (px - x).toNat < 8 ∧ b.getLsbD (7 - (px - x).toNat) = true ∧ pixel c.1 px y = true :=
  hit_drawColumns b x y c (le_refl _)

/-- A sprite is drawn byte after byte. -/
theorem drawSprite_succ (s : State) (n : Nat) (x : BitVec 6) (y : BitVec 5) :
    drawSprite s (n + 1) x y =
      drawRow (memRead s.mem (indexAddr s n)) x (y + BitVec.ofNat 5 n) (drawSprite s n x y) := by
  simp [drawSprite, List.range_succ]

end Sys2Proof.Machine
end

