-- ==== Sys2Proof/Laws/PerInstr.lean ====
section
/-! SUPPORT. Statements made per instruction: the word an instruction is encoded as is a well-formed word of R94. -/

namespace Sys2Proof.Laws.EncodedWellFormed

/-- A word under the mask of its row keeps only the fixed fields of the format. -/
theorem formatA_and (n : Nibble) (a : Addr) : formatA n a &&& 0xF000 = formatA n 0 := by
  ext i hi
  interval_cases i <;> simp [formatA]

theorem formatX_and (n x : Nibble) (b : Byte) : formatX n x b &&& 0xF000 = formatX n 0 0 := by
  ext i hi
  interval_cases i <;> simp [formatX]

theorem formatX_and_byte (n x : Nibble) (b : Byte) : formatX n x b &&& 0xF0FF = formatX n 0 b := by
  ext i hi
  interval_cases i <;> simp [formatX]

theorem formatXY_and (n x y k : Nibble) : formatXY n x y k &&& 0xF000 = formatXY n 0 0 0 := by
  ext i hi
  interval_cases i <;> simp [formatXY]

theorem formatXY_and_nibble (n x y k : Nibble) : formatXY n x y k &&& 0xF00F = formatXY n 0 0 k := by
  ext i hi
  interval_cases i <;> simp [formatXY]

/-- A word is well-formed as soon as one row of the table selects it. -/
theorem of_row {op : Word} (r : EncodingRow) (hr : r ∈ encodingRows) (h : op &&& r.mask = r.bits) :
    wordWellFormed op = true :=
  List.any_eq_true.2 ⟨r, hr, by simp [EncodingRow.selects, h]⟩

/-- The word of the instruction is one that a row of R94 selects. -/
def Statement (i : Instr) : Prop := wordWellFormed (encode i) = true

theorem cls : Statement .cls := by unfold Statement; decide
theorem ret : Statement .ret := by unfold Statement; decide
theorem jp (nnn : Addr) : Statement (.jp nnn) := of_row ⟨"1NNN", 0xF000, 0x1000⟩ (by decide) (formatA_and _ _)
theorem call (nnn : Addr) : Statement (.call nnn) := of_row ⟨"2NNN", 0xF000, 0x2000⟩ (by decide) (formatA_and _ _)
theorem seImm (x : Nibble) (nn : Byte) : Statement (.seImm x nn) :=
  of_row ⟨"3XNN", 0xF000, 0x3000⟩ (by decide) (formatX_and _ _ _)
theorem sneImm (x : Nibble) (nn : Byte) : Statement (.sneImm x nn) :=
  of_row ⟨"4XNN", 0xF000, 0x4000⟩ (by decide) (formatX_and _ _ _)
theorem seReg (x y : Nibble) : Statement (.seReg x y) :=
  of_row ⟨"5XY0", 0xF00F, 0x5000⟩ (by decide) (formatXY_and_nibble _ _ _ _)
theorem ldImm (x : Nibble) (nn : Byte) : Statement (.ldImm x nn) :=
  of_row ⟨"6XNN", 0xF000, 0x6000⟩ (by decide) (formatX_and _ _ _)
theorem addImm (x : Nibble) (nn : Byte) : Statement (.addImm x nn) :=
  of_row ⟨"7XNN", 0xF000, 0x7000⟩ (by decide) (formatX_and _ _ _)
theorem ldReg (x y : Nibble) : Statement (.ldReg x y) :=
  of_row ⟨"8XY0", 0xF00F, 0x8000⟩ (by decide) (formatXY_and_nibble _ _ _ _)
theorem or (x y : Nibble) : Statement (.or x y) :=
  of_row ⟨"8XY1", 0xF00F, 0x8001⟩ (by decide) (formatXY_and_nibble _ _ _ _)
theorem and (x y : Nibble) : Statement (.and x y) :=
  of_row ⟨"8XY2", 0xF00F, 0x8002⟩ (by decide) (formatXY_and_nibble _ _ _ _)
theorem xor (x y : Nibble) : Statement (.xor x y) :=
  of_row ⟨"8XY3", 0xF00F, 0x8003⟩ (by decide) (formatXY_and_nibble _ _ _ _)
theorem addReg (x y : Nibble) : Statement (.addReg x y) :=
  of_row ⟨"8XY4", 0xF00F, 0x8004⟩ (by decide) (formatXY_and_nibble _ _ _ _)
theorem sub (x y : Nibble) : Statement (.sub x y) :=
  of_row ⟨"8XY5", 0xF00F, 0x8005⟩ (by decide) (formatXY_and_nibble _ _ _ _)
theorem shr (x y : Nibble) : Statement (.shr x y) :=
  of_row ⟨"8XY6", 0xF00F, 0x8006⟩ (by decide) (formatXY_and_nibble _ _ _ _)
theorem subn (x y : Nibble) : Statement (.subn x y) :=
  of_row ⟨"8XY7", 0xF00F, 0x8007⟩ (by decide) (formatXY_and_nibble _ _ _ _)
theorem shl (x y : Nibble) : Statement (.shl x y) :=
  of_row ⟨"8XYE", 0xF00F, 0x800E⟩ (by decide) (formatXY_and_nibble _ _ _ _)
theorem sneReg (x y : Nibble) : Statement (.sneReg x y) :=
  of_row ⟨"9XY0", 0xF00F, 0x9000⟩ (by decide) (formatXY_and_nibble _ _ _ _)
theorem ldI (nnn : Addr) : Statement (.ldI nnn) := of_row ⟨"ANNN", 0xF000, 0xA000⟩ (by decide) (formatA_and _ _)
theorem jpV0 (nnn : Addr) : Statement (.jpV0 nnn) := of_row ⟨"BNNN", 0xF000, 0xB000⟩ (by decide) (formatA_and _ _)
theorem rnd (x : Nibble) (nn : Byte) : Statement (.rnd x nn) :=
  of_row ⟨"CXNN", 0xF000, 0xC000⟩ (by decide) (formatX_and _ _ _)
theorem drw (x y n : Nibble) : Statement (.drw x y n) :=
  of_row ⟨"DXYN", 0xF000, 0xD000⟩ (by decide) (formatXY_and _ _ _ _)
theorem skp (x : Nibble) : Statement (.skp x) :=
  of_row ⟨"EX9E", 0xF0FF, 0xE09E⟩ (by decide) (formatX_and_byte _ _ _)
theorem sknp (x : Nibble) : Statement (.sknp x) :=
  of_row ⟨"EXA1", 0xF0FF, 0xE0A1⟩ (by decide) (formatX_and_byte _ _ _)
theorem ldVxDt (x : Nibble) : Statement (.ldVxDt x) :=
  of_row ⟨"FX07", 0xF0FF, 0xF007⟩ (by decide) (formatX_and_byte _ _ _)
theorem ldVxK (x : Nibble) : Statement (.ldVxK x) :=
  of_row ⟨"FX0A", 0xF0FF, 0xF00A⟩ (by decide) (formatX_and_byte _ _ _)
theorem ldDtVx (x : Nibble) : Statement (.ldDtVx x) :=
  of_row ⟨"FX15", 0xF0FF, 0xF015⟩ (by decide) (formatX_and_byte _ _ _)
theorem ldStVx (x : Nibble) : Statement (.ldStVx x) :=
  of_row ⟨"FX18", 0xF0FF, 0xF018⟩ (by decide) (formatX_and_byte _ _ _)
theorem addI (x : Nibble) : Statement (.addI x) :=
  of_row ⟨"FX1E", 0xF0FF, 0xF01E⟩ (by decide) (formatX_and_byte _ _ _)
theorem ldF (x : Nibble) : Statement (.ldF x) :=
  of_row ⟨"FX29", 0xF0FF, 0xF029⟩ (by decide) (formatX_and_byte _ _ _)
theorem ldB (x : Nibble) : Statement (.ldB x) :=
  of_row ⟨"FX33", 0xF0FF, 0xF033⟩ (by decide) (formatX_and_byte _ _ _)
theorem ldMemVx (x : Nibble) : Statement (.ldMemVx x) :=
  of_row ⟨"FX55", 0xF0FF, 0xF055⟩ (by decide) (formatX_and_byte _ _ _)
theorem ldVxMem (x : Nibble) : Statement (.ldVxMem x) :=
  of_row ⟨"FX65", 0xF0FF, 0xF065⟩ (by decide) (formatX_and_byte _ _ _)

end Sys2Proof.Laws.EncodedWellFormed
end

