-- ==== Sys2Proof/Laws/Step.lean ====
section
/-! SUPPORT. What one step can do, said once: every proof about `step` splits on these cases instead of unfolding it. -/

namespace Sys2Proof.Machine

/-- With nothing scheduled a step is the engine's step (R267). -/
theorem step_of_empty {s : State} (h : s.schedule = []) : step s = engineStep s := by
  simp [step, runNext, nextOp, h, perform]

/-- With something scheduled a step performs it (R266). -/
theorem step_of_cons {s : State} {op : HostOp} {rest : List HostOp} (h : s.schedule = op :: rest) :
    step s = perform op { s with schedule := rest } := by
  simp [step, runNext, nextOp, h]

/-- Every instruction's result reaches the host with its status (R124). -/
theorem complete_next (t : State) : complete (.next t) = .next (report (haltStatus t.halt) t) := rfl

/-- All the engine's step can do when it answers a next state: halted, waiting, one instruction, or an unknown word (R120,
R125). -/
theorem engineStep_cases {s t : State} (h : engineStep s = .next t) :
    (s.halt ≠ .none ∧ t = report (haltStatus s.halt) s) ∨
    (s.halt = .none ∧ s.waiting = true ∧ t = report .ok (awaitingStep s)) ∨
    (s.halt = .none ∧ s.waiting = false ∧ ∃ i u, decodeWord (fetch s) = .ok i ∧ exec i (advancePc s) = .next u ∧
      t = report (haltStatus u.halt) u) ∨
    (s.halt = .none ∧ s.waiting = false ∧ (∃ e, decodeWord (fetch s) = .error e) ∧
      t = reportUnknown (fetch s) (advancePc s)) := by
  unfold engineStep at h
  cases hh : s.halt with
  | none =>
    simp only [hh] at h
    cases hw : s.waiting with
    | true =>
      rw [hw, if_pos rfl] at h
      cases h
      exact .inr (.inl ⟨rfl, rfl, rfl⟩)
    | false =>
      rw [hw] at h
      simp only [Bool.false_eq_true, if_false, executeNext] at h
      cases hd : decodeWord (fetch s) with
      | error e =>
        rw [hd] at h
        cases h
        exact .inr (.inr (.inr ⟨rfl, rfl, ⟨e, rfl⟩, rfl⟩))
      | ok i =>
        simp only [hd] at h
        cases he : exec i (advancePc s) with
        | next u =>
          rw [he] at h
          cases h
          exact .inr (.inr (.inl ⟨rfl, rfl, i, u, rfl, he, rfl⟩))
        | fault r => rw [he] at h; cases h
        | refused r => rw [he] at h; cases h
  | stackOverflow =>
    rw [hh] at h
    cases h
    exact .inl ⟨by simp, rfl⟩
  | stackUnderflow =>
    rw [hh] at h
    cases h
    exact .inl ⟨by simp, rfl⟩

/-- All `load` can do (R292 to R294). -/
theorem loadRom_cases (bytes : List Byte) (s : State) :
    (s.loadOpen = true ∧ Config.progOrigin + bytes.length ≤ Config.memSize ∧
      loadRom bytes s =
        .next { s with mem := copyBytes s.mem Config.progOrigin bytes, loadOpen := false, result := .loaded }) ∨
    (s.loadOpen = true ∧ Config.memSize < Config.progOrigin + bytes.length ∧
      loadRom bytes s = .next { s with loadOpen := false, result := .capacityError }) ∨
    (s.loadOpen = false ∧ loadRom bytes s = .refused .loadOutOfOrder) := by
  unfold loadRom romFits
  cases s.loadOpen with
  | false => exact .inr (.inr ⟨rfl, rfl⟩)
  | true =>
    by_cases h : Config.progOrigin + bytes.length ≤ Config.memSize
    · exact .inl ⟨rfl, h, by simp [h]⟩
    · exact .inr (.inl ⟨rfl, by omega, by simp [h]⟩)

end Sys2Proof.Machine
end

