-- ==== Sys2Proof/Tests/Slice0.lean ====
section
/-! SUPPORT. Tests. Every expected value is one of spec/95_test_vectors.md (named in the comment, with the id there) or is
written out from spec/30_encoding.md R94; none is the model's own answer. The witnesses at the end show that the hypotheses
of the statements can be met. -/

namespace Sys2Proof.Tests
open Sys2Proof.Machine

/-! ### Words: well-formedness smoke, one ill-formed word per check (R95) -/

theorem test_illformed_family0 : wordWellFormed 0x0000 = false := by decide
theorem test_illformed_family0_near : wordWellFormed 0x01E0 = false := by decide
theorem test_illformed_family5 : wordWellFormed 0x5121 = false := by decide
theorem test_illformed_family8 : wordWellFormed 0x8128 = false := by decide
theorem test_illformed_family9 : wordWellFormed 0x9121 = false := by decide
theorem test_illformed_familyE : wordWellFormed 0xE19F = false := by decide
theorem test_illformed_familyF : wordWellFormed 0xF1FF = false := by decide
theorem test_wellformed_word : wordWellFormed 0xF1FF = false ∧ wordWellFormed 0xF165 = true := by decide

/-! ### Decode: every constructor from a word written out bit by bit (R92, R94), and the unknown words of T-D1 to T-D9 -/

theorem test_decode_exact : decodeWord 0b0000000011100000 = .ok .cls ∧ decodeWord 0b0000000011101110 = .ok .ret := ⟨rfl, rfl⟩
theorem test_decode_address : decodeWord 0b0001001000110100 = .ok (.jp 0x234) ∧
    decodeWord 0b0010001100000000 = .ok (.call 0x300) ∧ decodeWord 0b1010001011110000 = .ok (.ldI 0x2F0) ∧
    decodeWord 0b1011001100000000 = .ok (.jpV0 0x300) := ⟨rfl, rfl, rfl, rfl⟩
theorem test_decode_immediate : decodeWord 0b0011101000000101 = .ok (.seImm 0xA 0x05) ∧
    decodeWord 0b0100101000000101 = .ok (.sneImm 0xA 0x05) ∧ decodeWord 0b0110101000101011 = .ok (.ldImm 0xA 0x2B) ∧
    decodeWord 0b0111000000000101 = .ok (.addImm 0x0 0x05) ∧ decodeWord 0b1100000100001111 = .ok (.rnd 0x1 0x0F) :=
  ⟨rfl, rfl, rfl, rfl, rfl⟩
theorem test_decode_registers : decodeWord 0b0101000100100000 = .ok (.seReg 0x1 0x2) ∧
    decodeWord 0b1001000100100000 = .ok (.sneReg 0x1 0x2) ∧ decodeWord 0b1000000100100000 = .ok (.ldReg 0x1 0x2) ∧
    decodeWord 0b1000000100100001 = .ok (.or 0x1 0x2) ∧ decodeWord 0b1000000100100010 = .ok (.and 0x1 0x2) ∧
    decodeWord 0b1000000100100011 = .ok (.xor 0x1 0x2) ∧ decodeWord 0b1000000100100100 = .ok (.addReg 0x1 0x2) ∧
    decodeWord 0b1000000100100101 = .ok (.sub 0x1 0x2) ∧ decodeWord 0b1000000100100110 = .ok (.shr 0x1 0x2) ∧
    decodeWord 0b1000000100100111 = .ok (.subn 0x1 0x2) ∧ decodeWord 0b1000000100101110 = .ok (.shl 0x1 0x2) :=
  ⟨rfl, rfl, rfl, rfl, rfl, rfl, rfl, rfl, rfl, rfl, rfl⟩
theorem test_decode_draw : decodeWord 0b1101000100100101 = .ok (.drw 0x1 0x2 0x5) := rfl
theorem test_decode_function : decodeWord 0b1110000110011110 = .ok (.skp 0x1) ∧
    decodeWord 0b1110000110100001 = .ok (.sknp 0x1) ∧ decodeWord 0b1111001000000111 = .ok (.ldVxDt 0x2) ∧
    decodeWord 0b1111001100001010 = .ok (.ldVxK 0x3) ∧ decodeWord 0b1111001000010101 = .ok (.ldDtVx 0x2) ∧
    decodeWord 0b1111001000011000 = .ok (.ldStVx 0x2) ∧ decodeWord 0b1111000100011110 = .ok (.addI 0x1) ∧
    decodeWord 0b1111001100101001 = .ok (.ldF 0x3) ∧ decodeWord 0b1111001000110011 = .ok (.ldB 0x2) ∧
    decodeWord 0b1111001101010101 = .ok (.ldMemVx 0x3) ∧ decodeWord 0b1111000101100101 = .ok (.ldVxMem 0x1) :=
  ⟨rfl, rfl, rfl, rfl, rfl, rfl, rfl, rfl, rfl, rfl, rfl⟩
theorem test_decode_unknown : decodeWord 0x0000 = .error (.unknownOpcode 0x0000) ∧
    decodeWord 0x5121 = .error (.unknownOpcode 0x5121) ∧ decodeWord 0x9121 = .error (.unknownOpcode 0x9121) ∧
    decodeWord 0x812F = .error (.unknownOpcode 0x812F) ∧ decodeWord 0xE19F = .error (.unknownOpcode 0xE19F) ∧
    decodeWord 0xF000 = .error (.unknownOpcode 0xF000) ∧ decodeWord 0x01E0 = .error (.unknownOpcode 0x01E0) :=
  ⟨rfl, rfl, rfl, rfl, rfl, rfl, rfl⟩
theorem test_decode_bytes_high_first : decode [0x6A, 0x2B, 0xFF] = .ok (.ldImm 0xA 0x2B, [0xFF]) := rfl
theorem test_decode_one_byte : decode [0x6A] = .error .truncated := rfl
theorem test_table_word : decodeTableWord 16 0xD125 = some (.drw 0x1 0x2 0x5) ∧ decodeTableWord 16 0x9121 = none := ⟨rfl, rfl⟩

/-! ### One step from the launch state (changed as the vector's "start" column says) -/

/-- The launch state with the given registers. -/
def withV (s : State) (l : List (Nibble × Byte)) : State := l.foldl (fun t p => setV t p.1 p.2) s

/-- The launch state with the given registers, nothing loaded. -/
def launch (l : List (Nibble × Byte)) : State := withV State.reset l

/-- One step of the word `w` placed at the PC of `s`, seen through `f`. -/
def after {α : Type} (s : State) (w : Nat) (f : State → α) : Option α :=
  match step (s.withFetchWord 16 w) with
  | .next t => some (f t)
  | _ => none

/-- One step of the model from `s`, seen through `f`. -/
def stepped {α : Type} (s : State) (f : State → α) : Option α :=
  match step s with
  | .next t => some (f t)
  | _ => none

/-- The status the last operation returned. -/
def statusIs (t : State) (r : Status) : Bool := t.result == .status r

-- T-D1, T-D10, T-D11, T-D12
theorem test_unknown_word : after (launch []) 0x0000 (fun t => (t.pc, t.result, t.reports)) =
    some (0x202, .status (.unknownOpcode 0x0000), [0x0000]) := by decide
theorem test_fetch_across_the_wrap : after { launch [] with pc := 0xFFF } 0x6A2B (fun t => (getV t 0xA, t.pc)) =
    some (0x2B, 0x001) := by decide
theorem test_fetch_odd : after { launch [] with pc := 0x201 } 0x6A2B (fun t => (getV t 0xA, t.pc)) =
    some (0x2B, 0x203) := by decide
theorem test_halted_step : stepped { launch [] with halt := .stackOverflow, pc := 0x202 }
    (fun t => (t.pc, t.result, t.halt)) = some (0x202, .status .stackOverflow, .stackOverflow) := by decide

-- T-C1, T-C2
theorem test_jp : after (launch []) 0x1234 (fun t => (t.pc, t.result)) = some (0x234, .status .ok) := by decide
theorem test_jp_odd : after (launch []) 0x1201 (fun t => t.pc) = some 0x201 := by decide
-- T-C5, T-C6
theorem test_call_pushes_the_wrapped_pc : after { launch [] with pc := 0xFFE } 0x2300
    (fun t => (t.stack.getD 0 1, t.sp, t.pc)) = some (0x0000, 1, 0x300) := by decide
theorem test_call_overflow : after { launch [] with sp := 16 } 0x2300 (fun t => (t.pc, t.halt, t.sp, t.result)) =
    some (0x202, .stackOverflow, 16, .status .stackOverflow) := by decide
-- T-C16, T-C17
theorem test_ret : after { launch [] with sp := 1, stack := State.reset.stack.set 0 0x0202, pc := 0x300 } 0x00EE
    (fun t => (t.pc, t.sp)) = some (0x202, 0) := by decide
theorem test_ret_underflow : after (launch []) 0x00EE (fun t => (t.pc, t.halt, t.result)) =
    some (0x202, .stackUnderflow, .status .stackUnderflow) := by decide
-- T-C18, T-C20
theorem test_jpV0 : after (launch [(0, 0x10)]) 0xB300 (fun t => t.pc) = some 0x310 := by decide
theorem test_jpV0_wraps : after (launch [(0, 0xFF)]) 0xBFFF (fun t => t.pc) = some 0x0FE := by decide
-- T-C7, T-C15, T-C9, T-C10
theorem test_seImm : after (launch [(0xA, 0x05)]) 0x3A05 (fun t => t.pc) = some 0x204 := by decide
theorem test_seImm_wraps : after { launch [(0xA, 0x05)] with pc := 0xFFE } 0x3A05 (fun t => t.pc) = some 0x002 := by decide
theorem test_sneImm_equal : after (launch [(0xA, 0x05)]) 0x4A05 (fun t => t.pc) = some 0x202 := by decide
theorem test_sneImm : after (launch [(0xA, 0x06)]) 0x4A05 (fun t => t.pc) = some 0x204 := by decide
-- T-C11, T-C12, T-C13, T-C14
theorem test_seReg : after (launch [(1, 7), (2, 7)]) 0x5120 (fun t => t.pc) = some 0x204 := by decide
theorem test_seReg_differ : after (launch [(1, 7), (2, 8)]) 0x5120 (fun t => t.pc) = some 0x202 := by decide
theorem test_sneReg : after (launch [(1, 7), (2, 8)]) 0x9120 (fun t => t.pc) = some 0x204 := by decide
theorem test_sneReg_equal : after (launch [(1, 7), (2, 7)]) 0x9120 (fun t => t.pc) = some 0x202 := by decide

-- T-A1, T-A3, T-A4, T-A5
theorem test_ldImm : after (launch []) 0x6A2B (fun t => (getV t 0xA, t.pc)) = some (0x2B, 0x202) := by decide
theorem test_addImm_no_carry : after (launch [(0, 0xFE), (0xF, 1)]) 0x7005 (fun t => (getV t 0, getV t 0xF)) =
    some (0x03, 0x01) := by decide
theorem test_addImm_vf : after (launch [(0xF, 0xFF)]) 0x7F01 (fun t => getV t 0xF) = some 0x00 := by decide
theorem test_ldReg : after (launch [(2, 0x7F)]) 0x8120 (fun t => (getV t 1, getV t 2)) = some (0x7F, 0x7F) := by decide
-- T-A6, T-A7, T-A8
theorem test_or : after (launch [(1, 0xF0), (2, 0x0F), (0xF, 1)]) 0x8121 (fun t => (getV t 1, getV t 0xF)) =
    some (0xFF, 0x01) := by decide
theorem test_and : after (launch [(1, 0xF0), (2, 0x3C), (0xF, 1)]) 0x8122 (fun t => (getV t 1, getV t 0xF)) =
    some (0x30, 0x01) := by decide
theorem test_xor : after (launch [(1, 0xF0), (2, 0x3C), (0xF, 1)]) 0x8123 (fun t => (getV t 1, getV t 0xF)) =
    some (0xCC, 0x01) := by decide
-- T-A10, T-A15, T-A17, T-A22
theorem test_addReg : after (launch [(0, 0xFF), (1, 1)]) 0x8014 (fun t => (getV t 0, getV t 0xF)) =
    some (0x00, 0x01) := by decide
theorem test_addReg_into_vf : after (launch [(0xF, 1), (1, 2)]) 0x8F14 (fun t => getV t 0xF) = some 0x00 := by decide
theorem test_sub_borrow : after (launch [(0, 1), (1, 2)]) 0x8015 (fun t => (getV t 0, getV t 0xF)) =
    some (0xFF, 0x00) := by decide
theorem test_sub_into_vf : after (launch [(0xF, 3), (1, 5)]) 0x8F15 (fun t => getV t 0xF) = some 0x00 := by decide
-- T-A25, T-A27, T-A29, T-A31, T-A32, T-A35
theorem test_shr_ignores_y : after (launch [(1, 4), (2, 0xFF)]) 0x8126 (fun t => (getV t 1, getV t 0xF, getV t 2)) =
    some (0x02, 0x00, 0xFF) := by decide
theorem test_shr_vf : after (launch [(0xF, 2)]) 0x8F06 (fun t => getV t 0xF) = some 0x00 := by decide
theorem test_subn : after (launch [(1, 5), (2, 3)]) 0x8127 (fun t => (getV t 1, getV t 0xF)) = some (0xFE, 0x00) := by decide
theorem test_subn_equal : after (launch [(1, 4), (2, 4)]) 0x8127 (fun t => (getV t 1, getV t 0xF)) =
    some (0x00, 0x01) := by decide
theorem test_shl : after (launch [(1, 0x81)]) 0x810E (fun t => (getV t 1, getV t 0xF)) = some (0x02, 0x01) := by decide
theorem test_shl_vf : after (launch [(0xF, 0x81)]) 0x8F0E (fun t => getV t 0xF) = some 0x01 := by decide
-- T-A36 (with the drawn byte given), T-A37 (NN = 0: the result whatever is drawn)
theorem test_rnd_mask : getV (randomMasked 0xA7 0x1 0x0F (launch [])) 0x1 = 0x07 := by decide
theorem test_rnd_zero_mask (b : Byte) : getV (randomMasked b 0x1 0x00 (launch [(1, 0x55)])) 0x1 = 0x00 := by
  simp [randomMasked]

-- T-M1, T-M2, T-M3, T-M4, T-M6
theorem test_ldI : after (launch []) 0xA2F0 (fun t => t.ireg) = some 0x2F0 := by decide
theorem test_addI : after { launch [(1, 0x10)] with ireg := 0x300 } 0xF11E (fun t => t.ireg) = some 0x310 := by decide
theorem test_addI_wraps : after { launch [(1, 2)] with ireg := 0xFFF } 0xF11E (fun t => (t.ireg, getV t 0xF)) =
    some (0x001, 0x00) := by decide
theorem test_ldF : after (launch [(3, 0x0A)]) 0xF329 (fun t => t.ireg) = some 0x082 := by decide
theorem test_ldF_no_mask : after (launch [(3, 0xFF)]) 0xF329 (fun t => t.ireg) = some 0x54B := by decide
-- T-M7, T-M12
theorem test_ldB : after { launch [(2, 0x9C)] with ireg := 0x300 } 0xF233
    (fun t => (memRead t.mem 0x300, memRead t.mem 0x301, memRead t.mem 0x302)) = some (0x01, 0x05, 0x06) := by decide
theorem test_ldB_wraps : after { launch [(2, 0xFF)] with ireg := 0xFFE } 0xF233
    (fun t => (memRead t.mem 0xFFE, memRead t.mem 0xFFF, memRead t.mem 0x000, t.ireg)) =
      some (0x02, 0x05, 0x05, 0xFFE) := by decide
-- T-M13, T-M15
theorem test_ldMemVx : after { launch [(0, 0x11), (1, 0x22), (2, 0x33), (3, 0x44)] with ireg := 0x300 } 0xF355
    (fun t => (memRead t.mem 0x300, memRead t.mem 0x303, memRead t.mem 0x304, t.ireg)) =
      some (0x11, 0x44, 0x00, 0x300) := by decide
theorem test_ldMemVx_wraps : after { launch [(7, 0xA7), (8, 0xA8), (0xF, 0xAF)] with ireg := 0xFF8 } 0xFF55
    (fun t => (memRead t.mem 0xFFF, memRead t.mem 0x000, memRead t.mem 0x007)) = some (0xA7, 0xA8, 0xAF) := by decide
-- T-M16, T-M17 (FONT)
theorem test_ldVxMem : after { launch [(2, 0x77)] with
      ireg := 0x300, mem := [(0x300, 0xAA), (0x301, 0xBB), (0x302, 0xCC)] } 0xF165
    (fun t => (getV t 0, getV t 1, getV t 2, t.ireg)) = some (0xAA, 0xBB, 0x77, 0x300) := by decide
theorem test_ldVxMem_font : after { launch [] with ireg := 0x050 } 0xFF65
    (fun t => (getV t 0, getV t 1, getV t 5, getV t 0xF)) = some (0xF0, 0x90, 0x20, 0xF0) := by decide

-- T-G1, T-G7, T-G10
theorem test_drw_wraps_the_column : after { launch [(0, 62)] with ireg := 0x300, mem := [(0x300, 0xF0)] } 0xD011
    (fun t => (t.fb.getD 0 0, getV t 0xF)) = some (0xC000000000000003, 0x00) := by decide
theorem test_drw_collision : after { launch [] with
      ireg := 0x300, mem := [(0x300, 0xC0)], fb := flipPixel (flipPixel blankFrame 1 0) 5 5 } 0xD011
    (fun t => (pixel t.fb 0 0, pixel t.fb 1 0, pixel t.fb 5 5, getV t 0xF)) = some (true, false, true, 0x01) := by decide
theorem test_cls : after { launch [(0xF, 1)] with fb := flipPixel (flipPixel blankFrame 0 0) 63 31 } 0x00E0
    (fun t => (t.fb, getV t 0xF)) = some (blankFrame, 0x01) := by decide

-- T-K1, T-K3, T-K4, T-K5, T-K6, T-K7, T-K8
theorem test_skp : after { launch [(1, 5)] with key := 0x0020 } 0xE19E (fun t => t.pc) = some 0x204 := by decide
theorem test_skp_high_bits : after { launch [(1, 0x15)] with key := 0x0020 } 0xE19E (fun t => t.pc) = some 0x204 := by decide
theorem test_sknp : after (launch [(1, 5)]) 0xE1A1 (fun t => t.pc) = some 0x204 := by decide
theorem test_sknp_down : after { launch [(1, 5)] with key := 0x0020 } 0xE1A1 (fun t => t.pc) = some 0x202 := by decide
theorem test_ldVxDt : after { launch [] with dt := 0x3C } 0xF207 (fun t => (getV t 2, t.dt)) = some (0x3C, 0x3C) := by decide
theorem test_ldDtVx : after (launch [(2, 0x3C)]) 0xF215 (fun t => (t.dt, t.st)) = some (0x3C, 0x00) := by decide
theorem test_ldStVx : after (launch [(2, 2)]) 0xF218 (fun t => (t.st, isSoundActive t)) = some (0x02, true) := by decide
-- T-W2 (steps 1 and 4), T-W4 (step 2), T-W5
theorem test_ldVxK_enters_the_wait : after { launch [] with key := 0x0004 } 0xF30A
    (fun t => (t.pc, t.waiting, t.waitX, t.waitPrev, getV t 3)) = some (0x200, true, 3, 0x0004, 0x00) := by decide
theorem test_ldVxK_at_the_top : after { launch [] with pc := 0xFFE } 0xF30A (fun t => t.pc) = some 0xFFE := by decide
theorem test_await_least_key : stepped { launch [] with waiting := true, waitX := 3, key := 0x0204 }
    (fun t => (getV t 3, t.pc, t.waiting)) = some (0x02, 0x202, false) := by decide
theorem test_await_held_key : stepped { launch [] with waiting := true, waitX := 3, key := 0x0080, waitPrev := 0x0080 }
    (fun t => (t.pc, t.waiting, t.waitPrev)) = some (0x200, true, 0x0080) := by decide

/-! ### The other operations -/

-- T-K11, T-K12, T-K14, S10
theorem test_tick : stepped { launch [] with dt := 0xFF, st := 1, schedule := [.tickTimers] }
    (fun t => (t.dt, t.st, isSoundActive t, t.schedule)) = some (0xFE, 0x00, false, []) := by decide
theorem test_tick_saturates : stepped { launch [] with schedule := [.tickTimers] } (fun t => (t.dt, t.st)) =
    some (0x00, 0x00) := by decide
theorem test_set_key : stepped { launch [] with schedule := [.setKey 3 true] } (fun t => t.key) = some 0x0008 := by decide
theorem test_clear_key : stepped { launch [] with key := 0x0018, schedule := [.setKey 3 false] } (fun t => t.key) =
    some 0x0010 := by decide
theorem test_sound : stepped { launch [] with st := 1, schedule := [.isSoundActive] } (fun t => t.result) =
    some (.sound true) := by decide
-- S2, T-R4
theorem test_load : stepped { launch [] with schedule := [.load [0x60, 0x2B, 0x12, 0x02]] }
    (fun t => (memRead t.mem 0x200, memRead t.mem 0x203, memRead t.mem 0x204, memRead t.mem 0x050, t.result)) =
      some (0x60, 0x02, 0x00, 0xF0, .loaded) := by decide
theorem test_load_empty : stepped { launch [] with schedule := [.load []] } (fun t => (t.mem, t.result)) =
    some ([], .loaded) := by decide
-- R294
theorem test_load_twice : step { launch [] with loadOpen := false, schedule := [.load []] } = .refused .loadOutOfOrder := rfl
-- T-R1
theorem test_machine_init : stepped { launch [(3, 0x99)] with
      halt := .stackOverflow, sp := 16, dt := 7, key := 0x0010, mem := [(0x300, 0x12)], schedule := [.machineInit] }
    (fun t => (getV t 3, t.halt, t.sp, t.dt, t.key)) = some (0x00, .none, 0, 0x00, 0x0000) := by decide
-- S1 (FONT)
theorem test_reset_font : memRead State.reset.mem 0x050 = 0xF0 ∧ memRead State.reset.mem 0x09F = 0x80 ∧
    memRead State.reset.mem 0x04F = 0x00 ∧ memRead State.reset.mem 0x0A0 = 0x00 := by decide
theorem test_font_length : Config.font.length = 80 := rfl

/-! ### Witnesses: a concrete state and operands that meet the hypotheses of a statement together -/

theorem witness_StoreIsSeenByTheNextFetch : Memory.wf State.reset.mem = true ∧ 1 ≤ (2 : Nibble).toNat ∧
    ({ launch [] with ireg := 0x1FF }).pc = indexAddr { launch [] with ireg := 0x1FF } 1 ∧
    ({ launch [] with ireg := 0x200 }).pc + 1 = indexAddr { launch [] with ireg := 0x200 } 1 := by decide
theorem witness_EqualReadsMakeEqualMemories : Memory.wf [(0x000, 0x12), (0xFFF, 0x34)] = true ∧
    ∀ a : Addr, memRead [(0x000, 0x12), (0xFFF, 0x34)] a = memRead [(0x000, 0x12), (0xFFF, 0x34)] a :=
  ⟨by decide, fun _ => rfl⟩
theorem witness_StepRunsTheDecodedInstruction :
    (State.reset.withFetchWord 16 0x6A2B).Running ∧
    decode [memRead (State.reset.withFetchWord 16 0x6A2B).mem 0x200, memRead (State.reset.withFetchWord 16 0x6A2B).mem 0x201] =
      .ok (.ldImm 0xA 0x2B, []) ∧
    ∃ t, exec (.ldImm 0xA 0x2B) { State.reset.withFetchWord 16 0x6A2B with pc := 0x202 } = .next t :=
  ⟨⟨rfl, rfl, rfl⟩, rfl, _, rfl⟩
theorem witness_UnknownWordIsReportedAndSkipped : State.reset.Running ∧
    wordWellFormed (wordOfBytes (memRead State.reset.mem State.reset.pc) (memRead State.reset.mem (State.reset.pc + 1))) =
      false := ⟨⟨rfl, rfl, rfl⟩, by decide⟩
theorem witness_HaltedStepChangesNothing : ({ State.reset with halt := .stackOverflow }).halt = .stackOverflow ∧
    ({ State.reset with halt := .stackUnderflow }).halt = .stackUnderflow ∧ State.reset.schedule = [] := ⟨rfl, rfl, rfl⟩
/-- Keys 2 and 9 newly down, key 0 held: 2 is the least new key (T-W2). -/
theorem witness_AwaitingStep_new_key : keyDown 0x0205 2 = true ∧ keyDown 0x0001 2 = false ∧
    ∀ j : Nibble, j.toNat < (2 : Nibble).toNat → keyDown 0x0205 j = true → keyDown 0x0001 j = true := by decide
/-- The boundary: only key 15 newly down. -/
theorem witness_AwaitingStep_last_key : keyDown 0x8000 15 = true ∧ keyDown 0x0000 15 = false ∧
    ∀ j : Nibble, j.toNat < (15 : Nibble).toNat → keyDown 0x8000 j = true → keyDown 0x0000 j = true := by decide
theorem witness_AwaitingStep_no_new_key : ∀ k : Nibble, keyDown 0x0080 k = true → keyDown 0x0080 k = true := by decide
theorem witness_AwaitingStep_state : ({ State.reset with waiting := true, waitX := 3 }).waiting = true ∧
    ({ State.reset with waiting := true }).halt = .none ∧ ({ State.reset with waiting := true }).schedule = [] :=
  ⟨rfl, rfl, rfl⟩
theorem witness_StepPerformsTheScheduledOperation :
    ({ State.reset with schedule := [.tickTimers, .step] }).schedule = .tickTimers :: [.step] ∧
    ∃ t, step { State.reset with schedule := [] } = .next t := ⟨rfl, _, rfl⟩
theorem witness_JumpToSelfIsAFixedPoint : (State.reset.withFetchWord 16 0x1200).schedule = [] ∧
    (State.reset.withFetchWord 16 0x1200).ProgramEnded := ⟨rfl, by decide⟩
theorem witness_MachineInitRestoresReset :
    ({ State.reset with halt := .stackOverflow, schedule := [.machineInit] }).schedule = .machineInit :: [] := rfl
theorem witness_LoadCopiesTheRom : ({ State.reset with schedule := [.load [0x12, 0x00]] }).schedule = .load [0x12, 0x00] :: [] ∧
    State.reset.loadOpen = true ∧ Memory.wf State.reset.mem = true ∧ [0x12#8, 0x00#8].length ≤ 3584 := by decide
/-- The boundary: a ROM of exactly 3584 bytes (S2). -/
theorem witness_LoadCopiesTheRom_full : (List.replicate 3584 (0xAB : Byte)).length ≤ 3584 := by
  rw [List.length_replicate]
/-- The boundary: a ROM of 3585 bytes (S3). -/
theorem witness_LoadTooLargeLeavesMemory : State.reset.loadOpen = true ∧ 3584 < (List.replicate 3585 (0xAB : Byte)).length := by
  rw [List.length_replicate]
  decide
theorem witness_LoadOutOfOrder_after_step : ∃ t, step { State.reset with schedule := [.step, .load []] } = .next t := ⟨_, rfl⟩
theorem witness_LoadOutOfOrder_after_load :
    ∃ t, step { State.reset with schedule := [.load [0x12], .load []] } = .next t := ⟨_, rfl⟩
theorem witness_HostOperations : ({ State.reset with schedule := [.tickTimers] }).schedule = .tickTimers :: [] ∧
    ({ State.reset with schedule := [.isSoundActive] }).schedule = .isSoundActive :: [] ∧
    ({ State.reset with schedule := [.setKey 15 true] }).schedule = .setKey 15 true :: [] ∧
    ({ State.reset with schedule := [.snapshotFramebuffer] }).schedule = .snapshotFramebuffer :: [] := ⟨rfl, rfl, rfl, rfl⟩
/-- 15 entries, the last push that succeeds, and 16. -/
theorem witness_CallPushesOrOverflows : ({ State.reset with sp := 15 }).sp < 16 ∧ ({ State.reset with sp := 16 }).sp = 16 := by
  decide
theorem witness_ReturnPopsOrUnderflows : 0 < ({ State.reset with sp := 1 }).sp ∧ 0 < ({ State.reset with sp := 16 }).sp ∧
    ({ State.reset with sp := 16 }).sp ≤ 16 ∧ State.reset.sp = 0 := by decide
theorem witness_SkipOnRegisters : (1 : Nibble) ≠ 0 := by decide
theorem witness_ReturnResumesAfterTheCall : State.reset.sp < 16 ∧
    ∃ t, exec (.call 0x300) State.reset = .next t ∧ ({ t with pc := 0x400 }).sp = t.sp ∧
      ({ t with pc := 0x400 }).stack = t.stack := ⟨by decide, _, rfl, rfl, rfl⟩
/-- The boundary: sixteen calls from an empty stack. -/
theorem witness_NestedCallsReturn : List.replicate 16 (0x200 : Addr) ≠ [] ∧
    State.reset.sp + (List.replicate 16 (0x200 : Addr)).length ≤ 16 := by decide
theorem witness_SeventeenthCallOverflows : State.reset.sp = 0 ∧ State.reset.halt = .none ∧
    (List.replicate 16 (0x200 : Addr)).length = 16 := by decide
/-- A sum of 255 and a sum of 256. -/
theorem witness_AddSetsTheCarry : 255 = (getV (launch [(0, 0xFF)]) 0).toNat + (getV (launch [(0, 0xFF)]) 1).toNat ∧
    256 = (getV (launch [(0, 0xFF), (1, 1)]) 0).toNat + (getV (launch [(0, 0xFF), (1, 1)]) 1).toNat := by decide
theorem witness_SubtractSetsNotBorrow : 5 = (getV (launch [(0, 5), (1, 5)]) 0).toNat ∧
    5 = (getV (launch [(0, 5), (1, 5)]) 1).toNat := by decide
theorem witness_ShiftsMoveOneBitIntoTheFlag : 0x81 = (getV (launch [(1, 0x81)]) 1).toNat := by decide
theorem witness_RandomStaysUnderItsMask : ∃ t, exec (.rnd 0x1 0x0F) State.reset = .next t := ⟨_, rfl⟩
theorem witness_DrawXorsTheSprite : (62 : BitVec 6).toNat = (getV (launch [(0, 62)]) 0).toNat % 64 ∧
    (31 : BitVec 5).toNat = (getV (launch [(1, 63)]) 1).toNat % 32 := by decide
/-- A sprite over a lit pixel, and a sprite over none. -/
theorem witness_DrawXorsTheSprite_clauses :
    (∃ px py, pixel (flipPixel blankFrame 1 0) px py = true ∧
      spriteCovers { launch [] with ireg := 0x300, mem := [(0x300, 0xC0)] } 1 0 0 px py = true) ∧
    (∀ px py, pixel blankFrame px py = true →
      spriteCovers { launch [] with ireg := 0x300, mem := [(0x300, 0xC0)] } 1 0 0 px py = false) :=
  ⟨⟨1, 0, by decide, by decide⟩, by
    intro px py h
    simp [pixel, blankFrame] at h⟩
theorem witness_DrawingTwiceErases : (0 : Nibble) ≠ 0xF ∧ (1 : Nibble) ≠ 0xF ∧
    after { launch [] with ireg := 0x300, mem := [(0x300, 0xF0)] } 0xD011 (fun t => (getV t 0xF, pixel t.fb 0 0)) =
      some (0, true) ∧ pixel (launch []).fb 0 0 = false := by decide
theorem witness_SkipOnKey : (5 : Nibble).toNat = (getV (launch [(1, 0x15)]) 1).toNat % 16 := by decide
/-- An engine that waits for a key, with key 7 newly down. -/
def awaiting : State := { State.reset with waiting := true, key := 0x0080 }
theorem awaiting_inv : awaiting.Inv :=
  ⟨rfl, Nat.zero_le _, fun d _ h => absurd h (Nat.not_lt_zero d), fun _ => rfl, fun _ h => absurd h List.not_mem_nil⟩
theorem witness_StepKeepsTheInvariant : awaiting.Inv ∧ ∃ t, step awaiting = .next t := ⟨awaiting_inv, _, rfl⟩
theorem witness_RegistersKeptByInstructions : writesV (.addReg 0 1) 2 = false ∧ writesV (.ldVxMem 0xE) 0xF = false ∧
    ∃ t, exec (.addReg 0 1) State.reset = .next t := ⟨by decide, by decide, _, rfl⟩
theorem witness_MemoryKeptOutsideTheStoredBytes : ∃ t, exec (.ldB 2) State.reset = .next t ∧
    ∀ k, k < storedBytes (.ldB 2) → (0x003 : Addr) ≠ indexAddr State.reset k := ⟨_, rfl, by decide⟩
theorem witness_OtherStateKeptByInstructions : movesPc (.ldImm 0 0) = false ∧ ∃ t, exec (.ldImm 0 0) State.reset = .next t :=
  ⟨rfl, _, rfl⟩
theorem witness_OnlyMachineInitEndsAHalt : ({ State.reset with halt := .stackUnderflow }).halt ≠ .none ∧
    ∃ t, step { State.reset with halt := .stackUnderflow, schedule := [.machineInit] } = .next t ∧
      t.halt ≠ .stackUnderflow := ⟨by decide, _, rfl, by decide⟩
theorem witness_OnlyANewKeyEndsAWait : awaiting.Inv ∧ awaiting.waiting = true ∧
    ∃ t, step awaiting = .next t ∧ t.waiting = false := ⟨awaiting_inv, rfl, _, rfl, by decide⟩
theorem witness_SoundTimerCannotBeRead : (∃ x, Instr.ldStVx 2 = .ldStVx x) ∧ (∀ x, Instr.cls ≠ .ldStVx x) ∧
    (∃ t, exec (.ldStVx 2) State.reset = .next t) ∧ ∃ t, exec .cls State.reset = .next t :=
  ⟨⟨2, rfl⟩, by simp, ⟨_, rfl⟩, _, rfl⟩
theorem witness_KeysReadOnlyByKeyInstructions :
    (∀ x, Instr.cls ≠ .skp x ∧ Instr.cls ≠ .sknp x ∧ Instr.cls ≠ .ldVxK x) ∧ ∃ t, exec .cls State.reset = .next t :=
  ⟨by simp, _, rfl⟩

end Sys2Proof.Tests
end

/-! PROOFS. The family of 30_encoding.md: what the decoder answers for a word, family by family (R94, R95, R98). -/

namespace Sys2Proof

/-! ### A word whose fixed fields are known is the format word of the others (R91, R92) -/

theorem formatA_of_opcode {op : Word} {n : Nibble} (hn1 : (fieldN1 op).toNat = n.toNat) :
    formatA n (fieldNNN op) = op := by
  rw [← BitVec.eq_of_toNat_eq hn1, formatA_fields]

theorem formatX_of_opcode {op : Word} {n : Nibble} (hn1 : (fieldN1 op).toNat = n.toNat) :
    formatX n (fieldX op) (fieldNN op) = op := by
  rw [← BitVec.eq_of_toNat_eq hn1, formatX_fields]

theorem formatX_of_function {op : Word} {n : Nibble} {b : Byte} (hn1 : (fieldN1 op).toNat = n.toNat)
    (hnn : (fieldNN op).toNat = b.toNat) : formatX n (fieldX op) b = op := by
  rw [← BitVec.eq_of_toNat_eq hnn, formatX_of_opcode hn1]

theorem formatXY_of_opcode {op : Word} {n : Nibble} (hn1 : (fieldN1 op).toNat = n.toNat) :
    formatXY n (fieldX op) (fieldY op) (fieldN op) = op := by
  rw [← BitVec.eq_of_toNat_eq hn1, formatXY_fields]

theorem formatXY_of_function {op : Word} {n k : Nibble} (hn1 : (fieldN1 op).toNat = n.toNat)
    (hn : (fieldN op).toNat = k.toNat) : formatXY n (fieldX op) (fieldY op) k = op := by
  rw [← BitVec.eq_of_toNat_eq hn, formatXY_of_opcode hn1]

/-! ### What the decoder answers -/

/-- The answers R98 allows for `op`: an instruction whose encoding is `op`, or `Unknown(op)`. -/
def AnswersWord (op : Word) (r : Except DecodeError Instr) : Prop :=
  (∃ i, r = .ok i ∧ encode i = op) ∨ r = .error (.unknownOpcode op)

theorem AnswersWord.of_encode {op : Word} {i : Instr} (h : encode i = op) : AnswersWord op (.ok i) :=
  .inl ⟨i, rfl, h⟩

theorem AnswersWord.unknown (op : Word) : AnswersWord op (.error (.unknownOpcode op)) := .inr rfl

theorem decodeFamily0_answersWord {op : Word} (hn1 : (fieldN1 op).toNat = 0x0) :
    AnswersWord op (decodeFamily0 op) := by
  have hop : formatA 0x0 (fieldNNN op) = op := formatA_of_opcode hn1
  unfold decodeFamily0
  split
  next hnnn => exact .of_encode (by rw [← hop, BitVec.eq_of_toNat_eq (y := 0x0E0) hnnn]; rfl)
  next hnnn => exact .of_encode (by rw [← hop, BitVec.eq_of_toNat_eq (y := 0x0EE) hnnn]; rfl)
  next => exact .unknown op

theorem decodeFamily5_answersWord {op : Word} (hn1 : (fieldN1 op).toNat = 0x5) :
    AnswersWord op (decodeFamily5 op) := by
  unfold decodeFamily5
  split
  next hn => exact .of_encode (formatXY_of_function hn1 hn)
  next => exact .unknown op

theorem decodeFamily8_answersWord {op : Word} (hn1 : (fieldN1 op).toNat = 0x8) :
    AnswersWord op (decodeFamily8 op) := by
  unfold decodeFamily8
  split
  case h_10 => exact .unknown op
  all_goals next hn => exact .of_encode (formatXY_of_function hn1 hn)

theorem decodeFamily9_answersWord {op : Word} (hn1 : (fieldN1 op).toNat = 0x9) :
    AnswersWord op (decodeFamily9 op) := by
  unfold decodeFamily9
  split
  next hn => exact .of_encode (formatXY_of_function hn1 hn)
  next => exact .unknown op

theorem decodeFamilyE_answersWord {op : Word} (hn1 : (fieldN1 op).toNat = 0xE) :
    AnswersWord op (decodeFamilyE op) := by
  unfold decodeFamilyE
  split
  case h_3 => exact .unknown op
  all_goals next hnn => exact .of_encode (formatX_of_function hn1 hnn)

theorem decodeFamilyF_answersWord {op : Word} (hn1 : (fieldN1 op).toNat = 0xF) :
    AnswersWord op (decodeFamilyF op) := by
  unfold decodeFamilyF
  split
  case h_10 => exact .unknown op
  all_goals next hnn => exact .of_encode (formatX_of_function hn1 hnn)

/-- The cases are those of the major opcode, 0x0 to 0xF. -/
theorem decodeWord_answersWord (op : Word) : AnswersWord op (decodeWord op) := by
  unfold decodeWord
  split
  next hn1 => exact decodeFamily0_answersWord hn1
  next hn1 => exact .of_encode (formatA_of_opcode hn1)
  next hn1 => exact .of_encode (formatA_of_opcode hn1)
  next hn1 => exact .of_encode (formatX_of_opcode hn1)
  next hn1 => exact .of_encode (formatX_of_opcode hn1)
  next hn1 => exact decodeFamily5_answersWord hn1
  next hn1 => exact .of_encode (formatX_of_opcode hn1)
  next hn1 => exact .of_encode (formatX_of_opcode hn1)
  next hn1 => exact decodeFamily8_answersWord hn1
  next hn1 => exact decodeFamily9_answersWord hn1
  next hn1 => exact .of_encode (formatA_of_opcode hn1)
  next hn1 => exact .of_encode (formatA_of_opcode hn1)
  next hn1 => exact .of_encode (formatX_of_opcode hn1)
  next hn1 => exact .of_encode (formatXY_of_opcode hn1)
  next hn1 => exact decodeFamilyE_answersWord hn1
  next hn1 => exact decodeFamilyF_answersWord hn1
  next => exact .unknown op

/-- Settles O3, by cases on the major opcode: in each family the fields the decoder read and the function value it matched
make up the word again. -/
theorem decodeIsTotal : Obligations.DecodeIsTotal := decodeWord_answersWord

end Sys2Proof

/-! PROOFS. The family of 41_control_flow.md: jumps and skips (R141, R144 to R147). -/

namespace Sys2Proof

open Machine

/-! ### Decoding the words of the jump and the skips -/

theorem decodeWord_jp (nnn : Addr) : decodeWord (formatA 0x1 nnn) = .ok (.jp nnn) := by simp [decodeWord]

theorem decodeWord_seImm (x : Nibble) (nn : Byte) : decodeWord (formatX 0x3 x nn) = .ok (.seImm x nn) := by
  simp [decodeWord]

theorem decodeWord_sneImm (x : Nibble) (nn : Byte) : decodeWord (formatX 0x4 x nn) = .ok (.sneImm x nn) := by
  simp [decodeWord]

theorem decodeFamily5_eq (op : Word) : decodeFamily5 op =
    if fieldN op = 0 then .ok (.seReg (fieldX op) (fieldY op)) else .error (.unknownOpcode op) := by
  unfold decodeFamily5
  split
  next hn => rw [if_pos (BitVec.eq_of_toNat_eq hn)]
  next hn => rw [if_neg fun h => hn (congrArg BitVec.toNat h)]

theorem decodeFamily9_eq (op : Word) : decodeFamily9 op =
    if fieldN op = 0 then .ok (.sneReg (fieldX op) (fieldY op)) else .error (.unknownOpcode op) := by
  unfold decodeFamily9
  split
  next hn => rw [if_pos (BitVec.eq_of_toNat_eq hn)]
  next hn => rw [if_neg fun h => hn (congrArg BitVec.toNat h)]

theorem decodeWord_formatXY_5 (x y n : Nibble) : decodeWord (formatXY 0x5 x y n) =
    if n = 0 then .ok (.seReg x y) else .error (.unknownOpcode (formatXY 0x5 x y n)) := by
  simp [decodeWord, decodeFamily5_eq]

theorem decodeWord_formatXY_9 (x y n : Nibble) : decodeWord (formatXY 0x9 x y n) =
    if n = 0 then .ok (.sneReg x y) else .error (.unknownOpcode (formatXY 0x9 x y n)) := by
  simp [decodeWord, decodeFamily9_eq]

/-! ### What a skip does to the state -/

/-- R126 for a skip taken when two bytes are equal (3XNN, 5XY0). -/
theorem skipIf_beq (a b : Byte) (s : State) :
    skipIf (a == b) s = { s with pc := if a = b then s.pc + 2 else s.pc } := by
  simp [skipIf_eq, setPc]

/-- R126 for a skip taken when two bytes differ (4XNN, 9XY0). -/
theorem skipIf_bne (a b : Byte) (s : State) :
    skipIf (a != b) s = { s with pc := if a = b then s.pc else s.pc + 2 } := by
  simp [skipIf_eq, setPc]

/-! ### What the jump and the skips answer -/

theorem exec_jp (nnn : Addr) (s : State) : exec (.jp nnn) s = .next (setPc s nnn) := rfl

/-- A jump back undoes the fetch advance, which moved nothing but the PC (R122). -/
theorem setPc_pc_advancePc (s : State) : setPc (advancePc s) s.pc = s := rfl

theorem exec_seImm (x : Nibble) (nn : Byte) (s : State) :
    exec (.seImm x nn) s = .next { s with pc := if getV s x = nn then s.pc + 2 else s.pc } :=
  congrArg _ (skipIf_beq _ _ s)

theorem exec_sneImm (x : Nibble) (nn : Byte) (s : State) :
    exec (.sneImm x nn) s = .next { s with pc := if getV s x = nn then s.pc else s.pc + 2 } :=
  congrArg _ (skipIf_bne _ _ s)

theorem exec_seReg (x y : Nibble) (s : State) :
    exec (.seReg x y) s = .next { s with pc := if getV s x = getV s y then s.pc + 2 else s.pc } :=
  congrArg _ (skipIf_beq _ _ s)

theorem exec_sneReg (x y : Nibble) (s : State) :
    exec (.sneReg x y) s = .next { s with pc := if getV s x = getV s y then s.pc else s.pc + 2 } :=
  congrArg _ (skipIf_bne _ _ s)

/-! ### The obligations -/

/-- Settles O23: the jump writes the PC only, so one to the fetch address undoes the fetch advance. -/
theorem jumpSetsThePc : Obligations.JumpSetsThePc := fun s nnn =>
  ⟨decodeWord_jp nnn, exec_jp nnn s, (exec_jp s.pc _).trans (congrArg _ (setPc_pc_advancePc s))⟩

/-- Settles O27, from the decoder's answers and the two skips on an immediate. -/
theorem skipOnImmediate : Obligations.SkipOnImmediate := fun s x nn =>
  ⟨decodeWord_seImm x nn, decodeWord_sneImm x nn, exec_seImm x nn s, exec_sneImm x nn s⟩

/-- Settles O28: families 5 and 9 are decided by whether the last nibble is 0. -/
theorem skipOnRegisters : Obligations.SkipOnRegisters := fun s x y n =>
  ⟨by rw [decodeWord_formatXY_5, if_pos rfl], by rw [decodeWord_formatXY_9, if_pos rfl],
    fun hn => ⟨by rw [decodeWord_formatXY_5, if_neg hn], by rw [decodeWord_formatXY_9, if_neg hn]⟩,
    exec_seReg x y s, exec_sneReg x y s⟩

end Sys2Proof

/-! PROOFS. The family of 42_alu.md: load, copy and the two additions (R160 to R162, R166). -/

namespace Sys2Proof

open Machine

/-! ### Decoding the words of the loads and the additions -/

theorem decodeWord_ldImm (x : Nibble) (nn : Byte) : decodeWord (formatX 0x6 x nn) = .ok (.ldImm x nn) := by
  simp [decodeWord]

theorem decodeWord_addImm (x : Nibble) (nn : Byte) : decodeWord (formatX 0x7 x nn) = .ok (.addImm x nn) := by
  simp [decodeWord]

/-- A word of major opcode 8 is decided by family 8, whatever its last nibble (R94). -/
theorem decodeWord_formatXY_8 (x y n : Nibble) :
    decodeWord (formatXY 0x8 x y n) = decodeFamily8 (formatXY 0x8 x y n) := by
  simp [decodeWord]

theorem decodeWord_ldReg (x y : Nibble) : decodeWord (formatXY 0x8 x y 0x0) = .ok (.ldReg x y) := by
  rw [decodeWord_formatXY_8]
  simp [decodeFamily8]

theorem decodeWord_addReg (x y : Nibble) : decodeWord (formatXY 0x8 x y 0x4) = .ok (.addReg x y) := by
  rw [decodeWord_formatXY_8]
  simp [decodeFamily8]

/-! ### A register written with what it holds -/

@[simp] theorem setV_getV_self (s : State) (x : Nibble) : setV s x (getV s x) = s := by
  simp [setV, getV]

/-! ### The byte sum and its carry, over the natural numbers -/

/-- The wrapping sum of two bytes is their sum as numbers, modulo 256 (R161, R166). -/
theorem byte_add_eq_ofNat_mod (a b : Byte) : a + b = BitVec.ofNat 8 ((a.toNat + b.toNat) % 256) :=
  BitVec.eq_of_toNat_eq (by simp)

/-- Bit 8 of the 9-bit sum is set exactly when the sum exceeds a byte (R166). -/
theorem carryOut_eq (a b : Byte) : carryOut a b = decide (a.toNat + b.toNat > 255) := by
  have hsum : (a.setWidth 9 + b.setWidth 9).toNat = a.toNat + b.toNat := by
    simp only [BitVec.toNat_add, BitVec.toNat_setWidth]
    omega
  calc carryOut a b
      = (a.setWidth 9 + b.setWidth 9).msb := (BitVec.msb_eq_getLsbD_last _).symm
    _ = decide (256 ≤ a.toNat + b.toNat) := by rw [BitVec.msb_eq_decide, hsum]
    _ = decide (a.toNat + b.toNat > 255) := rfl

/-! ### What the loads and the additions answer -/

theorem exec_ldImm (x : Nibble) (nn : Byte) (s : State) : exec (.ldImm x nn) s = .next (setV s x nn) := rfl

theorem exec_ldReg (x y : Nibble) (s : State) : exec (.ldReg x y) s = .next (setV s x (getV s y)) := rfl

theorem exec_addImm (x : Nibble) (nn : Byte) (s : State) :
    exec (.addImm x nn) s = .next (setV s x (getV s x + nn)) := rfl

/-- The result is written first and the flag last, both from the registers of `s` (R172). -/
theorem exec_addReg (x y : Nibble) (s : State) :
    exec (.addReg x y) s =
      .next (writeWithFlag s x (getV s x + getV s y) (carryOut (getV s x) (getV s y))) := rfl

/-! ### The obligations -/

/-- Settles O32: the two loads write one register, and a register copied to itself is written with what it holds. -/
theorem loadRegister : Obligations.LoadRegister := fun s x y nn =>
  ⟨decodeWord_ldImm x nn, decodeWord_ldReg x y, exec_ldImm x nn s, exec_ldReg x y s, by
    rw [exec_ldReg, setV_getV_self]⟩

/-- Settles O33: the byte addition is the sum modulo 256, and only VX is written. -/
theorem addImmediateWraps : Obligations.AddImmediateWraps := fun s x nn =>
  ⟨decodeWord_addImm x nn, by rw [exec_addImm, byte_add_eq_ofNat_mod]⟩

/-- Settles O35: the byte written is the sum modulo 256, and the carry out of the 9-bit sum says whether it exceeds 255. -/
theorem addSetsTheCarry : Obligations.AddSetsTheCarry := by
  rintro s x y sum rfl
  refine ⟨decodeWord_addReg x y, ?_⟩
  rw [exec_addReg, carryOut_eq, byte_add_eq_ofNat_mod]
  simp only [writeWithFlag, flagByte, vf, decide_eq_true_eq]

end Sys2Proof

/-! PROOFS. The family of 44_display.md: the clear (R211). -/

namespace Sys2Proof

open Machine

/-! ### The clear: its word and what it answers -/

theorem decodeWord_cls : decodeWord 0x00E0 = .ok .cls := rfl

theorem exec_cls (s : State) : exec .cls s = .next { s with fb := blankFrame } := rfl

/-! ### The obligation -/

/-- Settles O44: the clear writes the blank frame and no other field, and every pixel of the blank frame is off. -/
theorem clearTurnsEveryPixelOff : Obligations.ClearTurnsEveryPixelOff :=
  ⟨decodeWord_cls, fun s => ⟨{ s with fb := blankFrame }, exec_cls s, pixel_blankFrame, rfl⟩⟩

end Sys2Proof

/-! PROOFS. The family of 45_keys_timers.md: the timer reads and loads (R232, R235, R236). -/

namespace Sys2Proof

open Machine

/-! ### Decoding the words of the timer instructions -/

/-- A word of major opcode F is decided by family F, whatever its low byte (R94). -/
theorem decodeWord_formatX_F (x : Nibble) (b : Byte) :
    decodeWord (formatX 0xF x b) = decodeFamilyF (formatX 0xF x b) := by
  simp [decodeWord]

theorem decodeWord_ldVxDt (x : Nibble) : decodeWord (formatX 0xF x 0x07) = .ok (.ldVxDt x) := by
  rw [decodeWord_formatX_F]
  simp [decodeFamilyF]

theorem decodeWord_ldDtVx (x : Nibble) : decodeWord (formatX 0xF x 0x15) = .ok (.ldDtVx x) := by
  rw [decodeWord_formatX_F]
  simp [decodeFamilyF]

theorem decodeWord_ldStVx (x : Nibble) : decodeWord (formatX 0xF x 0x18) = .ok (.ldStVx x) := by
  rw [decodeWord_formatX_F]
  simp [decodeFamilyF]

/-! ### What the timer instructions answer -/

theorem exec_ldVxDt (x : Nibble) (s : State) : exec (.ldVxDt x) s = .next (setV s x s.dt) := rfl

theorem exec_ldDtVx (x : Nibble) (s : State) : exec (.ldDtVx x) s = .next { s with dt := getV s x } := rfl

theorem exec_ldStVx (x : Nibble) (s : State) : exec (.ldStVx x) s = .next { s with st := getV s x } := rfl

/-! ### The obligation -/

/-- Settles O48: family F tells the three words apart by their low byte, the read writes VX alone and each load its own
timer alone. -/
theorem timerMoves : Obligations.TimerMoves := fun s x =>
  ⟨decodeWord_ldVxDt x, decodeWord_ldDtVx x, decodeWord_ldStVx x, exec_ldVxDt x s, exec_ldDtVx x s, exec_ldStVx x s⟩

end Sys2Proof

/-! PROOFS. The family of 60_exceptions.md: the host's sound query and key write (R262, R264). -/

namespace Sys2Proof

open Machine

/-! ### What the two operations answer -/

/-- The sound is on exactly while the sound timer, as a number, is positive (R262). -/
theorem isSoundActive_eq (s : State) : isSoundActive s = decide (0 < s.st.toNat) := by
  rw [isSoundActive, Bool.eq_iff_iff, bne_iff_ne, decide_eq_true_iff]
  bv_omega

theorem perform_isSoundActive (s : State) :
    perform .isSoundActive s = .next { s with result := .sound (isSoundActive s) } := rfl

theorem perform_setKey (k : Nibble) (pressed : Bool) (s : State) :
    perform (.setKey k pressed) s = .next { s with key := writeKey s.key k pressed, result := .done } := rfl

/-! ### The flag written and the others -/

theorem keyDown_writeKey_self (keys : BitVec 16) (k : Nibble) (pressed : Bool) :
    keyDown (writeKey keys k pressed) k = pressed := by
  rw [keyDown_writeKey, if_pos rfl]

theorem keyDown_writeKey_of_ne (keys : BitVec 16) {k j : Nibble} (pressed : Bool) (hj : j ≠ k) :
    keyDown (writeKey keys k pressed) j = keyDown keys j := by
  rw [keyDown_writeKey, if_neg hj]

/-! ### The obligations -/

/-- Settles O20: the scheduled query reports whether ST, which taking it off the schedule leaves alone, is positive. -/
theorem soundIsActiveWhileItsTimerRuns : Obligations.SoundIsActiveWhileItsTimerRuns := by
  intro s rest hs
  rw [step_of_cons hs, perform_isSoundActive, isSoundActive_eq]

/-- Settles O21: the scheduled write replaces the key flags alone, and `writeKey` moves the flag of `k` alone. -/
theorem setKeyWritesOneFlag : Obligations.SetKeyWritesOneFlag := fun s k pressed _ hs =>
  ⟨_, (step_of_cons hs).trans (perform_setKey k pressed _), keyDown_writeKey_self s.key k pressed,
    fun _ hj => keyDown_writeKey_of_ne s.key pressed hj, rfl⟩

end Sys2Proof


/-! PROOFS. The family of 30_encoding.md: decoding undoes encoding, and the decoder against the mask and match table and
the table of unknown words (R64, R90 to R95). -/

namespace Sys2Proof

/-! ### Decoding an encoded instruction (R90 to R94) -/

/-- A word of major opcode E is decided by family E, whatever its low byte (R94). -/
theorem decodeWord_formatX_E (x : Nibble) (b : Byte) :
    decodeWord (formatX 0xE x b) = decodeFamilyE (formatX 0xE x b) := by
  simp [decodeWord]

/-- The cases are the formats of R92: the major opcode decides, or else the function field of its family. -/
theorem decodeWord_encode (i : Instr) : decodeWord (encode i) = .ok i := by
  cases i
  case cls | ret => rfl
  case jp | call | ldI | jpV0 => simp [encode, decodeWord]
  case seImm | sneImm | ldImm | addImm | rnd | drw => simp [encode, decodeWord]
  case seReg x y => rw [encode, decodeWord_formatXY_5, if_pos rfl]
  case sneReg x y => rw [encode, decodeWord_formatXY_9, if_pos rfl]
  case ldReg | or | and | xor | addReg | sub | shr | subn | shl =>
    rw [encode, decodeWord_formatXY_8]
    simp [decodeFamily8]
  case skp | sknp =>
    rw [encode, decodeWord_formatX_E]
    simp [decodeFamilyE]
  case ldVxDt | ldVxK | ldDtVx | ldStVx | addI | ldF | ldB | ldMemVx | ldVxMem =>
    rw [encode, decodeWord_formatX_F]
    simp [decodeFamilyF]

/-- The bytes of a word in front of others decode as the word does (R64). -/
theorem decode_bytesOfWord_append (op : Word) (rest : List Byte) :
    decode (bytesOfWord op ++ rest) = (decodeWord op).map (·, rest) := by
  rw [← wordOfBytes_bytes op]
  simp [bytesOfWord, decode_pair]

/-- Settles O2: the word is decoded by its format, and the two bytes in memory make the word again. -/
theorem decodeInvertsEncode : Obligations.DecodeInvertsEncode := fun i rest =>
  ⟨decodeWord_encode i, by rw [decode_bytesOfWord_append, decodeWord_encode]; rfl⟩

/-- Settles O1: each word is evaluated. -/
theorem sampleWordsDecode : Obligations.SampleWordsDecode := by
  unfold Obligations.SampleWordsDecode
  decide

/-! ### The mask and match table (R94) -/

/-- The cases are the rows of R94, one instruction each. -/
theorem wordWellFormed_encode (i : Instr) : wordWellFormed (encode i) = true := by
  cases i with
  | cls => exact Laws.EncodedWellFormed.cls
  | ret => exact Laws.EncodedWellFormed.ret
  | jp nnn => exact Laws.EncodedWellFormed.jp nnn
  | call nnn => exact Laws.EncodedWellFormed.call nnn
  | seImm x nn => exact Laws.EncodedWellFormed.seImm x nn
  | sneImm x nn => exact Laws.EncodedWellFormed.sneImm x nn
  | seReg x y => exact Laws.EncodedWellFormed.seReg x y
  | ldImm x nn => exact Laws.EncodedWellFormed.ldImm x nn
  | addImm x nn => exact Laws.EncodedWellFormed.addImm x nn
  | ldReg x y => exact Laws.EncodedWellFormed.ldReg x y
  | or x y => exact Laws.EncodedWellFormed.or x y
  | and x y => exact Laws.EncodedWellFormed.and x y
  | xor x y => exact Laws.EncodedWellFormed.xor x y
  | addReg x y => exact Laws.EncodedWellFormed.addReg x y
  | sub x y => exact Laws.EncodedWellFormed.sub x y
  | shr x y => exact Laws.EncodedWellFormed.shr x y
  | subn x y => exact Laws.EncodedWellFormed.subn x y
  | shl x y => exact Laws.EncodedWellFormed.shl x y
  | sneReg x y => exact Laws.EncodedWellFormed.sneReg x y
  | ldI nnn => exact Laws.EncodedWellFormed.ldI nnn
  | jpV0 nnn => exact Laws.EncodedWellFormed.jpV0 nnn
  | rnd x nn => exact Laws.EncodedWellFormed.rnd x nn
  | drw x y n => exact Laws.EncodedWellFormed.drw x y n
  | skp x => exact Laws.EncodedWellFormed.skp x
  | sknp x => exact Laws.EncodedWellFormed.sknp x
  | ldVxDt x => exact Laws.EncodedWellFormed.ldVxDt x
  | ldVxK x => exact Laws.EncodedWellFormed.ldVxK x
  | ldDtVx x => exact Laws.EncodedWellFormed.ldDtVx x
  | ldStVx x => exact Laws.EncodedWellFormed.ldStVx x
  | addI x => exact Laws.EncodedWellFormed.addI x
  | ldF x => exact Laws.EncodedWellFormed.ldF x
  | ldB x => exact Laws.EncodedWellFormed.ldB x
  | ldMemVx x => exact Laws.EncodedWellFormed.ldMemVx x
  | ldVxMem x => exact Laws.EncodedWellFormed.ldVxMem x

/-- A word the decoder accepts is the encoding of the instruction it answers (R98). -/
theorem encode_of_decodeWord {op : Word} {i : Instr} (h : decodeWord op = .ok i) : encode i = op := by
  obtain ⟨j, hj, hop⟩ | hunknown := decodeWord_answersWord op
  · obtain rfl : j = i := Except.ok.inj (hj.symm.trans h)
    exact hop
  · simp [h] at hunknown

/-! A word under a mask fixes the fields the mask covers. -/

theorem fieldN1_of_and_F000 {op bits : Word} (h : op &&& 0xF000 = bits) : fieldN1 op = fieldN1 bits := by
  rw [← h, ← formatA_fields op, Laws.EncodedWellFormed.formatA_and, fieldN1_formatA, fieldN1_formatA]

theorem fieldN1_of_and_F00F {op bits : Word} (h : op &&& 0xF00F = bits) :
    fieldN1 op = fieldN1 bits ∧ fieldN op = fieldN bits := by
  rw [← h, ← formatXY_fields op, Laws.EncodedWellFormed.formatXY_and_nibble]
  simp only [fieldN1_formatXY, fieldN_formatXY, and_self]

theorem fieldN1_of_and_F0FF {op bits : Word} (h : op &&& 0xF0FF = bits) :
    fieldN1 op = fieldN1 bits ∧ fieldNN op = fieldNN bits := by
  rw [← h, ← formatX_fields op, Laws.EncodedWellFormed.formatX_and_byte]
  simp only [fieldN1_formatX, fieldNN_formatX, and_self]

theorem and_FFFF (op : Word) : op &&& 0xFFFF = op := BitVec.and_allOnes
/-! Each row's fixed fields are those of one instruction; the table goes row by row, in the order of `encodingRows`. -/

theorem rowsRegReg_mask : ∀ r ∈ rowsRegReg, r.mask = 0xF00F := by decide

theorem rowsFunction_mask : ∀ r ∈ rowsFunction, r.mask = 0xF0FF := by decide

theorem rowsRegReg_encode (x y : Nibble) :
    ∀ r ∈ rowsRegReg, ∃ i, encode i = formatXY (fieldN1 r.bits) x y (fieldN r.bits) := by
  simp only [rowsRegReg, List.forall_mem_cons]
  exact ⟨⟨.seReg x y, rfl⟩, ⟨.ldReg x y, rfl⟩, ⟨.or x y, rfl⟩, ⟨.and x y, rfl⟩, ⟨.xor x y, rfl⟩, ⟨.addReg x y, rfl⟩,
    ⟨.sub x y, rfl⟩, ⟨.shr x y, rfl⟩, ⟨.subn x y, rfl⟩, ⟨.shl x y, rfl⟩, ⟨.sneReg x y, rfl⟩, List.forall_mem_nil _⟩

theorem rowsFunction_encode (x : Nibble) :
    ∀ r ∈ rowsFunction, ∃ i, encode i = formatX (fieldN1 r.bits) x (fieldNN r.bits) := by
  simp only [rowsFunction, List.forall_mem_cons]
  exact ⟨⟨.skp x, rfl⟩, ⟨.sknp x, rfl⟩, ⟨.ldVxDt x, rfl⟩, ⟨.ldVxK x, rfl⟩, ⟨.ldDtVx x, rfl⟩, ⟨.ldStVx x, rfl⟩,
    ⟨.addI x, rfl⟩, ⟨.ldF x, rfl⟩, ⟨.ldB x, rfl⟩, ⟨.ldMemVx x, rfl⟩, ⟨.ldVxMem x, rfl⟩, List.forall_mem_nil _⟩

/-- The opcode alone selects a word of these rows, but for the two exact words. -/
theorem exists_encode_of_rowsWide (op : Word) : ∀ r ∈ rowsWide, op &&& r.mask = r.bits → ∃ i, encode i = op := by
  have opcode {n : Nibble} {bits : Word} (hbits : fieldN1 bits = n) (h : op &&& 0xF000 = bits) :
      (fieldN1 op).toNat = n.toNat := by rw [fieldN1_of_and_F000 h, hbits]
  simp only [rowsWide, List.forall_mem_cons]
  exact ⟨fun h => ⟨.cls, h.symm.trans (and_FFFF op)⟩, fun h => ⟨.ret, h.symm.trans (and_FFFF op)⟩,
    fun h => ⟨.jp _, formatA_of_opcode (opcode rfl h)⟩, fun h => ⟨.call _, formatA_of_opcode (opcode rfl h)⟩,
    fun h => ⟨.ldI _, formatA_of_opcode (opcode rfl h)⟩, fun h => ⟨.jpV0 _, formatA_of_opcode (opcode rfl h)⟩,
    fun h => ⟨.seImm _ _, formatX_of_opcode (opcode rfl h)⟩, fun h => ⟨.sneImm _ _, formatX_of_opcode (opcode rfl h)⟩,
    fun h => ⟨.ldImm _ _, formatX_of_opcode (opcode rfl h)⟩, fun h => ⟨.addImm _ _, formatX_of_opcode (opcode rfl h)⟩,
    fun h => ⟨.rnd _ _, formatX_of_opcode (opcode rfl h)⟩, fun h => ⟨.drw _ _ _, formatXY_of_opcode (opcode rfl h)⟩,
    List.forall_mem_nil _⟩

/-- A word a row of the table selects is the word of an instruction. -/
theorem exists_encode_of_selects {r : EncodingRow} (hr : r ∈ encodingRows) {op : Word} (h : r.selects op = true) :
    ∃ i, encode i = op := by
  have h : op &&& r.mask = r.bits := eq_of_beq h
  simp only [encodingRows, List.mem_append] at hr
  rcases hr with (hr | hr) | hr
  · exact exists_encode_of_rowsWide op r hr h
  · obtain ⟨i, hi⟩ := rowsRegReg_encode (fieldX op) (fieldY op) r hr
    obtain ⟨hn1, hn⟩ := fieldN1_of_and_F00F (rowsRegReg_mask r hr ▸ h)
    exact ⟨i, by rw [hi, ← hn1, ← hn, formatXY_fields]⟩
  · obtain ⟨i, hi⟩ := rowsFunction_encode (fieldX op) r hr
    obtain ⟨hn1, hnn⟩ := fieldN1_of_and_F0FF (rowsFunction_mask r hr ▸ h)
    exact ⟨i, by rw [hi, ← hn1, ← hnn, formatX_fields]⟩

/-- Two rows that select one word agree on the bits both masks cover. -/
theorem bits_and_mask_of_selects {r r' : EncodingRow} {op : Word} (h : r.selects op = true) (h' : r'.selects op = true) :
    r.bits &&& r'.mask = r'.bits &&& r.mask := by
  rw [← eq_of_beq h, ← eq_of_beq h', BitVec.and_assoc, BitVec.and_assoc, BitVec.and_comm r.mask]

/-- Any two rows of the table differ in a bit both masks cover. -/
theorem encodingRows_disjoint :
    ∀ r ∈ encodingRows, ∀ r' ∈ encodingRows, r.bits &&& r'.mask = r'.bits &&& r.mask → r = r' := by decide

/-- Settles O4: an accepted word is an encoding, which a row selects, and a selected word is an encoding, which the decoder
accepts. -/
theorem decodeAgreesWithMaskAndMatch : Obligations.DecodeAgreesWithMaskAndMatch := by
  refine ⟨fun op => ⟨?_, fun h => ?_⟩, fun r hr r' hr' op h h' =>
    encodingRows_disjoint r hr r' hr' (bits_and_mask_of_selects h h')⟩
  · rintro ⟨i, hi⟩
    exact encode_of_decodeWord hi ▸ wordWellFormed_encode i
  · obtain ⟨r, hr, hsel⟩ := List.any_eq_true.1 h
    obtain ⟨i, rfl⟩ := exists_encode_of_selects hr hsel
    exact ⟨i, decodeWord_encode i⟩

/-- The word of an undecodable fetch matches no row of the table (R125). -/
theorem wordWellFormed_of_decode_error {op : Word} {e : DecodeError} (h : decodeWord op = .error e) :
    wordWellFormed op = false := by
  rw [← Bool.not_eq_true, ← (decodeAgreesWithMaskAndMatch.1 op)]
  simp [h]

/-- A word no row of the table selects is unknown (R125). -/
theorem decode_error_of_not_wellFormed {op : Word} (h : wordWellFormed op = false) :
    decodeWord op = .error (.unknownOpcode op) := by
  obtain ⟨i, hi, -⟩ | hunknown := decodeWord_answersWord op
  · simp [(decodeAgreesWithMaskAndMatch.1 op).1 ⟨i, hi⟩] at h
  · exact hunknown

/-! ### The table of unknown words (R95) -/

theorem toNat_fieldN1 (op : Word) : (fieldN1 op).toNat = op.toNat / 0x1000 := by
  simp [fieldN1, Nat.shiftRight_eq_div_pow]
  omega

theorem toNat_fieldNNN (op : Word) : (fieldNNN op).toNat = op.toNat % 0x1000 := by simp [fieldNNN]

theorem toNat_fieldNN (op : Word) : (fieldNN op).toNat = op.toNat % 0x100 := by simp [fieldNN]

theorem toNat_fieldN (op : Word) : (fieldN op).toNat = op.toNat % 0x10 := by simp [fieldN]

/-! What each family leaves over. -/

theorem decodeFamily0_unknown_iff (op : Word) : decodeFamily0 op = .error (.unknownOpcode op) ↔
    op.toNat % 0x1000 ≠ 0x0E0 ∧ op.toNat % 0x1000 ≠ 0x0EE := by
  unfold decodeFamily0
  rw [← toNat_fieldNNN]
  split <;> simp_all

theorem decodeFamily5_unknown_iff (op : Word) : decodeFamily5 op = .error (.unknownOpcode op) ↔
    op.toNat % 0x10 ≠ 0 := by
  unfold decodeFamily5
  rw [← toNat_fieldN]
  split <;> simp_all

theorem decodeFamily8_unknown_iff (op : Word) : decodeFamily8 op = .error (.unknownOpcode op) ↔
    op.toNat % 0x10 ∈ [0x8, 0x9, 0xA, 0xB, 0xC, 0xD, 0xF] := by
  have hlt := (fieldN op).isLt
  unfold decodeFamily8
  rw [← toNat_fieldN]
  generalize (fieldN op).toNat = n at hlt ⊢
  interval_cases n <;> simp

theorem decodeFamily9_unknown_iff (op : Word) : decodeFamily9 op = .error (.unknownOpcode op) ↔
    op.toNat % 0x10 ≠ 0 := by
  unfold decodeFamily9
  rw [← toNat_fieldN]
  split <;> simp_all

theorem decodeFamilyE_unknown_iff (op : Word) : decodeFamilyE op = .error (.unknownOpcode op) ↔
    op.toNat % 0x100 ∉ [0x9E, 0xA1] := by
  unfold decodeFamilyE
  rw [← toNat_fieldNN]
  split <;> simp_all

theorem decodeFamilyF_unknown_iff (op : Word) : decodeFamilyF op = .error (.unknownOpcode op) ↔
    op.toNat % 0x100 ∉ [0x07, 0x0A, 0x15, 0x18, 0x1E, 0x29, 0x33, 0x55, 0x65] := by
  unfold decodeFamilyF
  rw [← toNat_fieldNN]
  split <;> simp_all

/-- Settles O5, by the major opcode: six families leave words over, the other ten leave none. -/
theorem unknownWordsAreTheFamilyTable : Obligations.UnknownWordsAreTheFamilyTable := by
  intro op
  have hlt : op.toNat / 0x1000 < 16 := by omega
  rw [decodeWord, toNat_fieldN1]
  generalize op.toNat / 0x1000 = n1 at hlt ⊢
  interval_cases n1 <;>
    simp [decodeFamily0_unknown_iff, decodeFamily5_unknown_iff, decodeFamily8_unknown_iff, decodeFamily9_unknown_iff,
      decodeFamilyE_unknown_iff, decodeFamilyF_unknown_iff]

end Sys2Proof

/-! PROOFS. The family of 41_control_flow.md: call and return, and the jump with offset (R140, R142, R143, R148). -/

namespace Sys2Proof

open Machine

/-! ### Call and return, each on a stack that allows it and on one that does not -/

/-- Below capacity the post-fetch PC is pushed (R142). -/
theorem exec_call_of_lt {s : State} (nnn : Addr) (h : s.sp < 16) : exec (.call nnn) s =
    .next { s with stack := s.stack.set s.sp (s.pc.setWidth 16) h, sp := s.sp + 1, pc := nnn } := by
  simp only [exec, execCall, push_of_lt _ h]
  rfl

theorem exec_call_of_full {s : State} (nnn : Addr) (h : 16 ≤ s.sp) :
    exec (.call nnn) s = .next { s with halt := .stackOverflow } := by
  simp only [exec, execCall, push_of_full _ h]
  rfl

/-- The popped slot keeps its contents (R140). -/
theorem exec_ret_of_pos {s : State} {d : Nat} (h : s.sp = d + 1) :
    exec .ret s = .next { s with pc := mod4096 (s.stack.getD d 0), sp := d } := by
  simp only [exec, execRet, pop_of_pos h]
  rfl

theorem exec_ret_of_empty {s : State} (h : s.sp = 0) :
    exec .ret s = .next { s with halt := .stackUnderflow } := by
  simp only [exec, execRet, pop_of_empty h]
  rfl

/-! ### Values reduced modulo 0x1000 -/

@[simp] theorem toNat_mod4096 (w : Word) : (mod4096 w).toNat = w.toNat % 0x1000 := by simp [mod4096]

/-- An address that goes through a stack slot comes back (R24). -/
@[simp] theorem mod4096_setWidth (a : Addr) : mod4096 (a.setWidth 16) = a := by
  simp [mod4096, BitVec.setWidth_setWidth_of_le]

/-- An address plus a byte, reduced: neither addend is cut short on its way into 16 bits (R143, R191). -/
theorem mod4096_add (a : Addr) (b : Byte) :
    mod4096 (a.setWidth 16 + b.setWidth 16) = BitVec.ofNat 12 ((a.toNat + b.toNat) % 0x1000) := by
  apply BitVec.eq_of_toNat_eq
  simp only [toNat_mod4096, BitVec.toNat_add, BitVec.toNat_setWidth, BitVec.toNat_ofNat]
  omega

theorem exec_jpV0 (nnn : Addr) (s : State) :
    exec (.jpV0 nnn) s = .next { s with pc := mod4096 (nnn.setWidth 16 + (getV s 0).setWidth 16) } := rfl

/-! ### A call and its return -/

/-- A return whose top slot holds an address goes there (R148). -/
theorem exec_ret_of_top {u : State} {d : Nat} {a : Addr} (hsp : u.sp = d + 1)
    (htop : u.stack.getD d 0 = a.setWidth 16) : exec .ret u = .next { u with pc := a, sp := d } := by
  rw [exec_ret_of_pos hsp, htop, mod4096_setWidth]

/-! ### Instructions executed one after the other -/

theorem runInstrs_cons {i : Instr} {s t : State} (rest : List Instr) (h : exec i (advancePc s) = .next t) :
    runInstrs (i :: rest) s = runInstrs rest t := by
  simp only [runInstrs, h]

theorem runInstrs_append {front : List Instr} {s t : State} (rest : List Instr) (h : runInstrs front s = .next t) :
    runInstrs (front ++ rest) s = runInstrs rest t := by
  induction front generalizing s with
  | nil => cases h; rfl
  | cons i front ih =>
    simp only [List.cons_append, runInstrs] at h ⊢
    cases hi : exec i (advancePc s) with
    | next u =>
      rw [hi] at h
      exact ih h
    | fault r => rw [hi] at h; cases h
    | refused r => rw [hi] at h; cases h

/-- A call the stack has room for, from its fetch on: one more slot is live and holds the post-fetch PC (R142). -/
theorem exec_call_advancePc {s : State} (a : Addr) (h : s.sp < 16) :
    ∃ u, exec (.call a) (advancePc s) = .next u ∧ u = { s with pc := a, stack := u.stack, sp := s.sp + 1 } ∧
      ∀ d, u.stack.getD d 0 = if s.sp = d then (s.pc + 2).setWidth 16 else s.stack.getD d 0 :=
  ⟨_, exec_call_of_lt (s := advancePc s) a h, rfl, fun _ => slot_set _ _ _ h⟩

/-- Calls the stack has room for, one after the other (R142). -/
theorem runInstrs_calls (targets : List Addr) {s : State} (h : s.sp + targets.length ≤ 16) :
    ∃ t, runInstrs (targets.map .call) s = .next t ∧ t.halt = s.halt ∧ t.sp = s.sp + targets.length := by
  induction targets generalizing s with
  | nil => exact ⟨s, rfl, rfl, rfl⟩
  | cons a targets ih =>
    rw [List.length_cons] at h
    obtain ⟨u, hcall, hu, -⟩ := exec_call_advancePc (s := s) a (by omega)
    have husp : u.sp = s.sp + 1 := by rw [hu]
    have huhalt : u.halt = s.halt := by rw [hu]
    obtain ⟨t, hrun, hhalt, hsp⟩ := ih (s := u) (by omega)
    refine ⟨t, ?_, hhalt.trans huhalt, by rw [hsp, List.length_cons]; omega⟩
    rw [List.map_cons, runInstrs_cons _ hcall, hrun]

/-- Calls and as many returns: the calls inside the first one put the PC and the slots above it anywhere, and the last
return takes the PC from the first call's own slot (R148). -/
theorem runInstrs_calls_returns (targets : List Addr) {s : State} (h : s.sp + targets.length ≤ 16) :
    ∃ t, runInstrs (targets.map .call ++ List.replicate targets.length .ret) s = .next t ∧
      t = { s with pc := t.pc, stack := t.stack } ∧ (∀ d, d < s.sp → t.stack.getD d 0 = s.stack.getD d 0) ∧
      (targets ≠ [] → t.pc = s.pc + 2) := by
  induction targets generalizing s with
  | nil => exact ⟨s, rfl, rfl, fun _ _ => rfl, fun h => absurd rfl h⟩
  | cons a targets ih =>
    rw [List.length_cons] at h
    obtain ⟨u, hcall, hu, huslots⟩ := exec_call_advancePc (s := s) a (by omega)
    have husp : u.sp = s.sp + 1 := by rw [hu]
    obtain ⟨t, hrun, ht, hslots, -⟩ := ih (s := u) (by omega)
    have htsp : t.sp = s.sp + 1 := by rw [ht, husp]
    have htop : t.stack.getD s.sp 0 = (s.pc + 2).setWidth 16 := by
      rw [hslots s.sp (by omega), huslots, if_pos rfl]
    refine ⟨{ t with pc := s.pc + 2, sp := s.sp }, ?_, ?_, fun d hd => ?_, fun _ => rfl⟩
    · rw [List.map_cons, List.cons_append, runInstrs_cons _ hcall, List.length_cons, List.replicate_succ',
        ← List.append_assoc, runInstrs_append _ hrun]
      exact runInstrs_cons [] (exec_ret_of_top (u := advancePc t) htsp htop)
    · rw [ht, hu]
    · rw [hslots d (by omega), huslots, if_neg (by omega)]

/-! ### The obligations -/

/-- Settles O24, from the two cases of `push`. -/
theorem callPushesOrOverflows : Obligations.CallPushesOrOverflows := fun s nnn =>
  ⟨decodeWord_encode (.call nnn), fun h => by rw [exec_call_of_lt nnn h, BitVec.ofNat_toNat],
    fun h => exec_call_of_full nnn h.ge⟩

/-- Settles O25, from the two cases of `pop`. -/
theorem returnPopsOrUnderflows : Obligations.ReturnPopsOrUnderflows := by
  refine fun s => ⟨decodeWord_encode .ret, fun hpos _ => ?_, exec_ret_of_empty⟩
  exact ⟨_, exec_ret_of_pos (d := s.sp - 1) (by omega), rfl, toNat_mod4096 _⟩

/-- Settles O26: the 16-bit sum is reduced modulo 0x1000. -/
theorem jumpWithOffset : Obligations.JumpWithOffset := fun s nnn =>
  ⟨decodeWord_encode (.jpV0 nnn), by rw [exec_jpV0, mod4096_add]⟩

/-- Settles O29: the slot the return pops is the one the call wrote. -/
theorem returnResumesAfterTheCall : Obligations.ReturnResumesAfterTheCall := by
  refine fun s u nnn h => ⟨_, exec_call_of_lt nnn h, fun hsp hstack => exec_ret_of_top hsp ?_⟩
  rw [hstack, slot_set, if_pos rfl]

/-- Settles O30, by the induction of `runInstrs_calls_returns` on the calls. -/
theorem nestedCallsReturn : Obligations.NestedCallsReturn := by
  intro s targets hne hroom
  obtain ⟨t, hrun, ht, hslots, hpc⟩ := runInstrs_calls_returns targets hroom
  exact ⟨t, hrun, by rw [← hpc hne]; exact ht, hslots⟩

/-- Settles O31: sixteen calls fill the stack, and the next finds it full. -/
theorem seventeenthCallOverflows : Obligations.SeventeenthCallOverflows := by
  intro s targets last hsp hhalt hlen
  obtain ⟨t, hrun, hthalt, htsp⟩ := runInstrs_calls targets (s := s) (by omega)
  refine ⟨t, hrun, hthalt.trans hhalt, by omega, ?_⟩
  rw [runInstrs_append _ hrun]
  exact runInstrs_cons [] (exec_call_of_full last (by rw [advancePc_sp]; omega))

end Sys2Proof

/-! PROOFS. The family of 42_alu.md: logic, subtraction, shifts and the random byte (R163 to R165, R167 to R171). -/

namespace Sys2Proof

open Machine

/-! ### What the instructions answer -/

theorem exec_or (x y : Nibble) (s : State) : exec (.or x y) s = .next (setV s x (getV s x ||| getV s y)) := rfl

theorem exec_and (x y : Nibble) (s : State) : exec (.and x y) s = .next (setV s x (getV s x &&& getV s y)) := rfl

theorem exec_xor (x y : Nibble) (s : State) : exec (.xor x y) s = .next (setV s x (getV s x ^^^ getV s y)) := rfl

theorem exec_sub (x y : Nibble) (s : State) : exec (.sub x y) s =
    .next (writeWithFlag s x (getV s x - getV s y) (notBorrow (getV s x) (getV s y))) := rfl

theorem exec_subn (x y : Nibble) (s : State) : exec (.subn x y) s =
    .next (writeWithFlag s x (getV s y - getV s x) (notBorrow (getV s y) (getV s x))) := rfl

theorem exec_shr (x y : Nibble) (s : State) : exec (.shr x y) s =
    .next (writeWithFlag s x (getV s x >>> 1) (lowBit (getV s x))) := rfl

theorem exec_shl (x y : Nibble) (s : State) : exec (.shl x y) s =
    .next (writeWithFlag s x (getV s x <<< 1) (highBit (getV s x))) := rfl

theorem exec_rnd (x : Nibble) (nn : Byte) (s : State) : exec (.rnd x nn) s =
    .next { setV s x (Config.freeByte s.draws &&& nn) with draws := s.draws + 1 } := rfl

/-! ### Results and flags over the natural numbers -/

/-- The wrapping difference of two bytes, with 256 borrowed where it is negative (R167, R169). -/
theorem byte_sub_eq_ofNat (a b : Byte) :
    a - b = BitVec.ofNat 8 (if b.toNat ≤ a.toNat then a.toNat - b.toNat else a.toNat + 256 - b.toNat) := by
  have hb := b.isLt
  apply BitVec.eq_of_toNat_eq
  rw [BitVec.toNat_sub, BitVec.toNat_ofNat]
  split <;> omega

theorem flagByte_notBorrow (a b : Byte) : flagByte (notBorrow a b) = if b.toNat ≤ a.toNat then 1 else 0 := by
  simp only [flagByte, notBorrow, decide_eq_true_eq]

theorem byte_shiftRight_one (a : Byte) : a >>> 1 = BitVec.ofNat 8 (a.toNat / 2) :=
  BitVec.eq_of_toNat_eq (by simp [Nat.shiftRight_eq_div_pow]; omega)

theorem byte_shiftLeft_one (a : Byte) : a <<< 1 = BitVec.ofNat 8 (2 * a.toNat % 256) :=
  BitVec.eq_of_toNat_eq (by simp [Nat.shiftLeft_eq, Nat.mul_comm])

/-- The flag a right shift leaves is the remainder of the halving (R168). -/
theorem flagByte_lowBit (a : Byte) : flagByte (lowBit a) = BitVec.ofNat 8 (a.toNat % 2) := by
  have hbit : lowBit a = decide (a.toNat % 2 = 1) := by simp [lowBit, BitVec.getLsbD, Nat.testBit_zero]
  rw [hbit, flagByte]
  obtain h | h : a.toNat % 2 = 0 ∨ a.toNat % 2 = 1 := by omega
  all_goals simp [h]

/-- The flag a left shift leaves is the part of the doubled value above a byte (R170). -/
theorem flagByte_highBit (a : Byte) : flagByte (highBit a) = BitVec.ofNat 8 (a.toNat / 128) := by
  have ha := a.isLt
  have hbit : highBit a = decide (128 ≤ a.toNat) :=
    (BitVec.msb_eq_getLsbD_last a).symm.trans (BitVec.msb_eq_decide a)
  rw [hbit, flagByte]
  obtain h | h : a.toNat / 128 = 0 ∧ a.toNat < 128 ∨ a.toNat / 128 = 1 ∧ 128 ≤ a.toNat := by omega
  · simp [h.1, Nat.not_le.2 h.2]
  · simp [h.1, h.2]

/-! ### The obligations -/

/-- Settles O34: each operator on bytes is the operator on every bit. -/
theorem logicBitByBit : Obligations.LogicBitByBit := fun s x y =>
  ⟨decodeWord_encode (.or x y), decodeWord_encode (.and x y), decodeWord_encode (.xor x y), _, _, _, exec_or x y s,
    exec_and x y s, exec_xor x y s, fun _ _ => ⟨BitVec.getLsbD_or, BitVec.getLsbD_and, BitVec.getLsbD_xor⟩⟩

/-- Settles O36: difference and not-borrow read as numbers. -/
theorem subtractSetsNotBorrow : Obligations.SubtractSetsNotBorrow := by
  rintro s x y _ _ rfl rfl
  rw [exec_sub, exec_subn]
  simp only [writeWithFlag, flagByte_notBorrow, byte_sub_eq_ofNat, vf, and_self]

/-- Settles O37: halving and doubling, and the bit each puts out, read as numbers. -/
theorem shiftsMoveOneBitIntoTheFlag : Obligations.ShiftsMoveOneBitIntoTheFlag := by
  rintro s x y _ rfl
  rw [exec_shr, exec_shl]
  simp only [writeWithFlag, byte_shiftRight_one, byte_shiftLeft_one, flagByte_lowBit, flagByte_highBit, vf, and_self]

/-- Settles O38: the byte of this draw serves both masks, and a masked byte has no bit outside its mask. -/
theorem randomStaysUnderItsMask : Obligations.RandomStaysUnderItsMask := by
  refine fun s x nn => ⟨Config.freeByte s.draws, exec_rnd x nn s, ?_, ?_⟩
  · rw [exec_rnd, show (0xFF : Byte) = BitVec.allOnes 8 from rfl, BitVec.and_allOnes]
  · rintro t ht
    cases (exec_rnd x nn s).symm.trans ht
    have hx : getV (setV s x (Config.freeByte s.draws &&& nn)) x = Config.freeByte s.draws &&& nn := by
      rw [getV_setV, if_pos rfl]
    calc getV (setV s x (Config.freeByte s.draws &&& nn)) x &&& ~~~nn
        = Config.freeByte s.draws &&& (nn &&& ~~~nn) := by rw [hx, BitVec.and_assoc]
      _ = 0 := by simp

end Sys2Proof

/-! PROOFS. The family of 43_index_memory.md: the index register, and the bytes FX33, FX55 and FX65 move (R190 to R195,
with R71 and the canonical form of memory). -/

namespace Sys2Proof

open Machine

/-! ### What the instructions answer -/

theorem exec_ldI (nnn : Addr) (s : State) : exec (.ldI nnn) s = .next (setI s nnn) := rfl

theorem exec_addI (x : Nibble) (s : State) : exec (.addI x) s =
    .next (setI s (mod4096 (s.ireg.setWidth 16 + (getV s x).setWidth 16))) := rfl

theorem exec_ldF (x : Nibble) (s : State) : exec (.ldF x) s =
    .next (setI s (mod4096 (BitVec.ofNat 16 Config.fontBase + 5 * (getV s x).setWidth 16))) := rfl

theorem exec_ldB (x : Nibble) (s : State) : exec (.ldB x) s = .next { s with mem := storeDigits s (getV s x) } := rfl

theorem exec_ldMemVx (x : Nibble) (s : State) : exec (.ldMemVx x) s = .next { s with mem := storeBlock s x } := rfl

theorem exec_ldVxMem (x : Nibble) (s : State) : exec (.ldVxMem x) s = .next (loadBlock s x) := rfl

/-! ### Addresses -/

/-- The glyph of the largest byte still lies below 0x1000, so nothing is reduced (R192). -/
theorem toNat_glyphAddress (b : Byte) :
    (mod4096 (BitVec.ofNat 16 Config.fontBase + 5 * b.setWidth 16)).toNat = 0x050 + 5 * b.toNat := by
  have h5 : (5 : Word).toNat = 5 := rfl
  simp only [toNat_mod4096, BitVec.toNat_add, BitVec.toNat_mul, BitVec.toNat_setWidth, BitVec.toNat_ofNat, h5,
    Config.fontBase]
  omega

/-- The register block's registers are numbered by the registers themselves (R194, R195). -/
@[simp] theorem blockReg_toNat (k : Nibble) : blockReg k.toNat = k := by
  rw [blockReg, BitVec.ofNat_toNat, BitVec.setWidth_eq]

@[simp] theorem indexAddr_zero (s : State) : indexAddr s 0 = s.ireg := BitVec.add_zero _

theorem indexAddr_ne {s : State} {j k : Nat} (hj : j < 4096) (hk : k < 4096) (h : j ≠ k) :
    indexAddr s j ≠ indexAddr s k := fun e => h (indexAddr_inj hj hk e)

/-! ### The three digits FX33 stores (R193) -/

section Digits

variable {s : State} (hm : Memory.wf s.mem = true) (a : Byte)

include hm

theorem memRead_storeDigits_hundreds : memRead (storeDigits s a) (indexAddr s 0) = a / 100 := by
  rw [storeDigits, memRead_memWrite_ne _ _ (indexAddr_ne (by decide) (by decide) (by decide)),
    memRead_memWrite_ne _ _ (indexAddr_ne (by decide) (by decide) (by decide)), memRead_memWrite_self hm]

theorem memRead_storeDigits_tens : memRead (storeDigits s a) (indexAddr s 1) = a / 10 % 10 := by
  rw [storeDigits, memRead_memWrite_ne _ _ (indexAddr_ne (by decide) (by decide) (by decide)),
    memRead_memWrite_self (wf_memWrite hm _ _)]

theorem memRead_storeDigits_ones : memRead (storeDigits s a) (indexAddr s 2) = a % 10 :=
  memRead_memWrite_self (wf_memWrite (wf_memWrite hm _ _) _ _) _ _

end Digits

theorem memRead_storeDigits_outside (s : State) (b : Byte) {a : Addr} (h : ∀ k, k < 3 → a ≠ indexAddr s k) :
    memRead (storeDigits s b) a = memRead s.mem a := by
  rw [storeDigits, memRead_memWrite_ne _ _ (h 2 (by decide)), memRead_memWrite_ne _ _ (h 1 (by decide)),
    memRead_memWrite_ne _ _ (h 0 (by decide))]

/-! ### The canonical form is one form (log entry 7) -/

/-- A listed cell does not read as its reset contents, so a memory that lists nothing up to it reads otherwise there. -/
theorem cellAt_ne_of_listed {a : Nat} {b : Byte} {m m' : Memory} {lo : Nat} (hb : b ≠ resetByte a)
    (hm' : Memory.wfFrom lo m' = true) (h : a < lo) : cellAt ((a, b) :: m) a ≠ cellAt m' a := by
  rw [cellAt_of_lt hm' h, cellAt, if_pos rfl]
  exact hb

/-- By induction on the first memory: were the first listed addresses different, the lower one would tell the two
memories apart. -/
theorem memory_ext {lo lo' : Nat} {m m' : Memory} (hm : Memory.wfFrom lo m = true) (hm' : Memory.wfFrom lo' m' = true)
    (h : ∀ a, a < Config.memSize → cellAt m a = cellAt m' a) : m = m' := by
  induction m generalizing lo lo' m' with
  | nil =>
    cases m' with
    | nil => rfl
    | cons c m' =>
      obtain ⟨-, ha, hb, -⟩ := Memory.wfFrom_cons.1 hm'
      exact absurd (h c.1 ha).symm (cellAt_ne_of_listed (lo := c.1 + 1) hb rfl (Nat.lt_succ_self _))
  | cons c m ih =>
    obtain ⟨a, b⟩ := c
    obtain ⟨-, ha, hb, htail⟩ := Memory.wfFrom_cons.1 hm
    cases m' with
    | nil => exact absurd (h a ha) (cellAt_ne_of_listed (lo := a + 1) hb rfl (Nat.lt_succ_self _))
    | cons c' m' =>
      obtain ⟨a', b'⟩ := c'
      obtain ⟨-, ha', hb', htail'⟩ := Memory.wfFrom_cons.1 hm'
      obtain hlt | rfl | hlt := Nat.lt_trichotomy a a'
      · exact absurd (h a ha) (cellAt_ne_of_listed hb (Memory.wfFrom_cons.2 ⟨le_refl _, ha', hb', htail'⟩) hlt)
      · have hbb : b = b' := by simpa [cellAt] using h a ha
        have htails : m = m' := by
          refine ih htail htail' fun c hc => ?_
          by_cases hac : c < a + 1
          · rw [cellAt_of_lt htail hac, cellAt_of_lt htail' hac]
          · have hne : a ≠ c := by omega
            simpa [cellAt, hne] using h c hc
        rw [hbb, htails]
      · exact absurd (h a' ha').symm (cellAt_ne_of_listed hb' (Memory.wfFrom_cons.2 ⟨le_refl _, ha, hb, htail⟩) hlt)

/-! ### The bytes of a fetched word (R64) -/

theorem toNat_wordOfBytes_high (hi lo : Byte) : (wordOfBytes hi lo).toNat / 0x100 = hi.toNat := by
  have h := congrArg BitVec.toNat (highByte_wordOfBytes hi lo)
  simp only [highByte, BitVec.extractLsb'_toNat, Nat.shiftRight_eq_div_pow] at h
  omega

theorem toNat_wordOfBytes_low (hi lo : Byte) : (wordOfBytes hi lo).toNat % 0x100 = lo.toNat := by
  have h := congrArg BitVec.toNat (lowByte_wordOfBytes hi lo)
  simpa [lowByte] using h

/-! ### The obligations -/

/-- Settles O39: the load writes I with NNN, the addition with the sum reduced. -/
theorem indexLoadAndAdd : Obligations.IndexLoadAndAdd := fun s x nnn =>
  ⟨decodeWord_encode (.ldI nnn), decodeWord_encode (.addI x), exec_ldI nnn s, by
    rw [exec_addI, mod4096_add]
    rfl⟩

/-- Settles O40: I alone is written, with an address that needs no reduction. -/
theorem glyphAddress : Obligations.GlyphAddress := fun s x => ⟨_, exec_ldF x s, toNat_glyphAddress _, rfl⟩

/-- Settles O41, digit by digit. -/
theorem decimalDigitsAreStored : Obligations.DecimalDigitsAreStored := by
  refine fun s x hm => ⟨_, exec_ldB x s, rfl, ?_, ?_, ?_, fun a h0 h1 h2 => ?_⟩
  · have hdigit := memRead_storeDigits_hundreds hm (getV s x)
    rw [indexAddr_zero] at hdigit
    rw [hdigit]
    simp
  · exact (congrArg BitVec.toNat (memRead_storeDigits_tens hm (getV s x))).trans (by simp)
  · exact (congrArg BitVec.toNat (memRead_storeDigits_ones hm (getV s x))).trans (by simp)
  · refine memRead_storeDigits_outside s _ fun k hk => ?_
    interval_cases k
    · rwa [indexAddr_zero]
    · exact h1
    · exact h2

/-- Settles O42, from what the block store does inside and outside the block. -/
theorem registerBlockIsStored : Obligations.RegisterBlockIsStored := by
  refine fun s x hm => ⟨_, exec_ldMemVx x s, rfl, fun k hk => ?_, fun a ha => memRead_storeBlock_outside s x ha⟩
  have hread := memRead_storeBlock_inside hm x hk
  rwa [blockReg_toNat] at hread

/-- Settles O43: the block load writes registers only, each from its own address. -/
theorem registerBlockIsLoaded : Obligations.RegisterBlockIsLoaded := fun s x =>
  ⟨_, exec_ldVxMem x s, loadBlock_eq s x, getV_loadBlock s x⟩

/-- Settles O6, by the induction of `memory_ext`. -/
theorem equalReadsMakeEqualMemories : Obligations.EqualReadsMakeEqualMemories := by
  refine fun m m' hm hm' h => memory_ext hm hm' fun a ha => ?_
  have hread := h (BitVec.ofNat 12 a)
  rwa [memRead, memRead, BitVec.toNat_ofNat, Nat.mod_eq_of_lt (b := 2 ^ 12) ha] at hread

/-- Settles O7: the fetch reads the byte stored there, as one half of its word. -/
theorem storeIsSeenByTheNextFetch : Obligations.StoreIsSeenByTheNextFetch := by
  refine fun s x k hm hk => ⟨_, exec_ldMemVx x s, fun hpc => ?_, fun hpc => ?_⟩
  · rw [fetch, toNat_wordOfBytes_high, hpc, memRead_storeBlock_inside hm x hk]
  · rw [fetch, toNat_wordOfBytes_low, hpc, memRead_storeBlock_inside hm x hk]

end Sys2Proof

/-! PROOFS. The family of 44_display.md: the draw (R212). -/

namespace Sys2Proof

open Machine

/-! ### What the draw answers -/

/-- The framebuffer is written first and VF last; the corner is read from the state before (R172, R212). -/
theorem exec_drw (x y n : Nibble) (s : State) : exec (.drw x y n) s =
    .next (setV { s with fb := (drawSprite s n.toNat (column (getV s x)) (row (getV s y))).1 } vf
      (flagByte (drawSprite s n.toNat (column (getV s x)) (row (getV s y))).2)) := rfl

theorem eq_column_of_toNat {x0 : BitVec 6} {b : Byte} (h : x0.toNat = b.toNat % 64) : x0 = column b :=
  BitVec.eq_of_toNat_eq (by simpa [column] using h)

theorem eq_row_of_toNat {y0 : BitVec 5} {b : Byte} (h : y0.toNat = b.toNat % 32) : y0 = row b :=
  BitVec.eq_of_toNat_eq (by simpa [row] using h)

/-! ### A whole sprite, pixel by pixel -/

section Sprite

variable (s : State) (x : BitVec 6) (y : BitVec 5)

theorem spriteCovers_zero (px : BitVec 6) (py : BitVec 5) : spriteCovers s 0 x y px py = false := by
  simp [spriteCovers]

/-- The row of the sprite's byte `n`: the longer sprite has that byte there. -/
theorem spriteCovers_succ_self (n : Nat) (px : BitVec 6) (py : BitVec 5) (h : (py - y).toNat = n) :
    spriteCovers s (n + 1) x y px py =
      (decide ((px - x).toNat < 8) && (memRead s.mem (indexAddr s n)).getLsbD (7 - (px - x).toNat)) := by
  rw [spriteCovers, h, decide_eq_true (Nat.lt_succ_self n), Bool.and_true]

theorem spriteCovers_self (n : Nat) (px : BitVec 6) (py : BitVec 5) (h : (py - y).toNat = n) :
    spriteCovers s n x y px py = false := by
  rw [spriteCovers, h, decide_eq_false (lt_irrefl n), Bool.and_false, Bool.false_and]

/-- Every other row: a further byte changes nothing. -/
theorem spriteCovers_succ_ne (n : Nat) (px : BitVec 6) (py : BitVec 5) (h : (py - y).toNat ≠ n) :
    spriteCovers s (n + 1) x y px py = spriteCovers s n x y px py := by
  have hlt : decide ((py - y).toNat < n + 1) = decide ((py - y).toNat < n) := decide_eq_decide.2 (by omega)
  rw [spriteCovers, spriteCovers, hlt]

/-- A draw turns over the pixels the sprite covers, and no other (R212). By induction on the bytes: each is drawn in a row
of its own. -/
theorem pixel_drawSprite {n : Nat} (hn : n ≤ 32) (px : BitVec 6) (py : BitVec 5) :
    pixel (drawSprite s n x y).1 px py = (pixel s.fb px py != spriteCovers s n x y px py) := by
  induction n with
  | zero => rw [spriteCovers_zero, Bool.bne_false]; rfl
  | succ n ih =>
    have hrow := row_eq_iff y py (show n < 32 by omega)
    rw [drawSprite_succ, pixel_drawRow, ih (by omega)]
    by_cases hp : (py - y).toNat = n
    · rw [spriteCovers_self s x y n px py hp, spriteCovers_succ_self s x y n px py hp, decide_eq_true (hrow.2 hp),
        Bool.true_and, Bool.bne_false]
    · rw [spriteCovers_succ_ne s x y n px py hp, decide_eq_false (mt hrow.1 hp), Bool.false_and, Bool.false_and,
        Bool.bne_false]

/-- A draw collides where a lit pixel was under a 1 bit of the sprite (R212). By induction on the bytes: the row of the
next byte is still as it was. -/
theorem hit_drawSprite {n : Nat} (hn : n ≤ 32) : (drawSprite s n x y).2 = true ↔
    ∃ px py, pixel s.fb px py = true ∧ spriteCovers s n x y px py = true := by
  induction n with
  | zero => simp [drawSprite, spriteCovers_zero]
  | succ n ih =>
    have hself : (y + BitVec.ofNat 5 n - y).toNat = n := (row_eq_iff y _ (by omega)).1 rfl
    have hrow (px : BitVec 6) : pixel (drawSprite s n x y).1 px (y + BitVec.ofNat 5 n) =
        pixel s.fb px (y + BitVec.ofNat 5 n) := by
      rw [pixel_drawSprite s x y (by omega), spriteCovers_self s x y n px _ hself, Bool.bne_false]
    rw [drawSprite_succ, hit_drawRow, ih (by omega)]
    constructor
    · rintro (⟨px, py, hlit, hcov⟩ | ⟨px, hcol, hbit, hlit⟩)
      · have hp : (py - y).toNat ≠ n := fun e => by simp [spriteCovers_self s x y n px py e] at hcov
        exact ⟨px, py, hlit, (spriteCovers_succ_ne s x y n px py hp).trans hcov⟩
      · refine ⟨px, _, (hrow px).symm.trans hlit, ?_⟩
        rw [spriteCovers_succ_self s x y n px _ hself, hbit, decide_eq_true hcol, Bool.and_self]
    · rintro ⟨px, py, hlit, hcov⟩
      by_cases hp : (py - y).toNat = n
      · obtain rfl := (row_eq_iff y py (show n < 32 by omega)).2 hp
        rw [spriteCovers_succ_self s x y n px _ hp, Bool.and_eq_true, decide_eq_true_iff] at hcov
        exact .inr ⟨px, hcov.1, hcov.2, (hrow px).trans hlit⟩
      · exact .inl ⟨px, py, hlit, (spriteCovers_succ_ne s x y n px py hp).symm.trans hcov⟩

end Sprite

/-! ### The obligations -/

/-- Settles O45: the canvas of the whole sprite, with its collision flag in VF. -/
theorem drawXorsTheSprite : Obligations.DrawXorsTheSprite := by
  intro s x y n x0 y0 hx hy
  obtain rfl := eq_column_of_toNat hx
  obtain rfl := eq_row_of_toNat hy
  have hn : n.toNat ≤ 32 := by omega
  have hhit := hit_drawSprite s (column (getV s x)) (row (getV s y)) hn
  refine ⟨_, exec_drw x y n s, pixel_drawSprite s _ _ hn, fun hex => ?_, fun hall => ?_, fun z hz => ?_, rfl⟩
  · rw [hhit.2 hex]
    exact getV_setV _ vf vf 1
  · have hfalse : (drawSprite s n.toNat (column (getV s x)) (row (getV s y))).2 = false := by
      rw [← Bool.not_eq_true, hhit]
      rintro ⟨px, py, hlit, hcov⟩
      simp [hall px py hlit] at hcov
    rw [hfalse]
    exact getV_setV _ vf vf 0
  · exact (getV_setV _ vf z _).trans (if_neg (Ne.symm hz))

/-- Settles O46: both draws are `DrawXorsTheSprite` with one corner and one sprite, so the second turns the same pixels back.
A first draw that changed something covered a pixel, and one that hit nothing turned it on. -/
theorem drawingTwiceErases : Obligations.DrawingTwiceErases := by
  intro s x y n hx hy
  obtain ⟨x0, hx0⟩ : ∃ x0 : BitVec 6, x0.toNat = (getV s x).toNat % 64 := ⟨column (getV s x), by simp [column]⟩
  obtain ⟨y0, hy0⟩ : ∃ y0 : BitVec 5, y0.toNat = (getV s y).toNat % 32 := ⟨row (getV s y), by simp [row]⟩
  obtain ⟨t, htexec, htpix, hthit, -, htv, ht⟩ := drawXorsTheSprite s x y n x0 y0 hx0 hy0
  rw [← htv x hx] at hx0
  rw [← htv y hy] at hy0
  obtain ⟨u, huexec, hupix, huhit, -⟩ := drawXorsTheSprite t x y n x0 y0 hx0 hy0
  have hsame (px : BitVec 6) (py : BitVec 5) :
      spriteCovers t n.toNat x0 y0 px py = spriteCovers s n.toNat x0 y0 px py := by rw [ht]; rfl
  refine ⟨t, u, htexec, huexec, framebuffer_ext fun px py => ?_, fun hvf hne => huhit ?_⟩
  · rw [hupix, hsame, htpix, Bool.bne_assoc, bne_self_eq_false, Bool.bne_false]
  · obtain ⟨px, py, hcov⟩ : ∃ px py, spriteCovers s n.toNat x0 y0 px py = true := by
      by_contra hnone
      push Not at hnone
      refine hne (framebuffer_ext fun px py => ?_)
      rw [htpix, Bool.eq_false_of_not_eq_true (hnone px py), Bool.bne_false]
    have hdark : pixel s.fb px py = false := by
      rw [← Bool.not_eq_true]
      intro hlit
      exact absurd (hvf.symm.trans (hthit ⟨px, py, hlit, hcov⟩)) (by decide)
    exact ⟨px, py, by rw [htpix, hdark, hcov]; rfl, (hsame px py).trans hcov⟩

end Sys2Proof

/-! PROOFS. The family of 40_fetch_dispatch.md: what the engine's step is, gate by gate (R120 to R129). -/

namespace Sys2Proof

open Machine

/-! ### The gate -/

/-- Halted, the step only reports the latched kind (R129). -/
theorem engineStep_of_halted {s : State} (h : s.halt ≠ .none) :
    engineStep s = .next (report (haltStatus s.halt) s) := by
  rw [engineStep]
  cases hhalt : s.halt with
  | none => exact absurd hhalt h
  | stackOverflow => rfl
  | stackUnderflow => rfl

/-- Waiting, it is the awaiting step (R234). -/
theorem engineStep_of_waiting {s : State} (hhalt : s.halt = .none) (hwait : s.waiting = true) :
    engineStep s = .next (report .ok (awaitingStep s)) := by
  rw [engineStep, hhalt, hwait]
  rfl

/-- Otherwise it is one instruction (R120). -/
theorem engineStep_of_open {s : State} (hhalt : s.halt = .none) (hwait : s.waiting = false) :
    engineStep s = executeNext s := by
  rw [engineStep, hhalt, hwait]
  rfl

/-! ### One instruction -/

theorem executeNext_of_ok {s t : State} {i : Instr} (hdec : decodeWord (fetch s) = .ok i)
    (hexec : exec i (advancePc s) = .next t) : executeNext s = .next (report (haltStatus t.halt) t) := by
  rw [executeNext, hdec]
  exact congrArg complete hexec

theorem executeNext_of_error {s : State} {e : DecodeError} (hdec : decodeWord (fetch s) = .error e) :
    executeNext s = .next (reportUnknown (fetch s) (advancePc s)) := by
  rw [executeNext, hdec]

theorem step_of_running {s : State} (h : s.Running) : step s = executeNext s := by
  obtain ⟨hsched, hhalt, hwait⟩ := h
  rw [step_of_empty hsched, engineStep_of_open hhalt hwait]

/-- Two bytes that decode with nothing left over make a word that decodes to the same instruction (R64). -/
theorem decodeWord_of_decode_pair {hi lo : Byte} {i : Instr} (h : decode [hi, lo] = .ok (i, [])) :
    decodeWord (wordOfBytes hi lo) = .ok i := by
  rw [decode_pair] at h
  cases hdec : decodeWord (wordOfBytes hi lo) with
  | error e => rw [hdec] at h; cases h
  | ok j => rw [hdec] at h; cases h; rfl

/-- A word whose value is that of a jump to `a` is the word of that jump (R302). -/
theorem eq_encode_jp_of_toNat {op : Word} {a : Addr} (h : op.toNat = 0x1000 + a.toNat) : op = encode (.jp a) := by
  have ha := a.isLt
  have hn1 : (fieldN1 op).toNat = 0x1 := by rw [toNat_fieldN1]; omega
  have hnnn : fieldNNN op = a := BitVec.eq_of_toNat_eq (by rw [toNat_fieldNNN]; omega)
  rw [encode, ← hnnn]
  exact (formatA_of_opcode hn1).symm

/-! ### The obligations -/

/-- Settles O8: the word the two bytes make is the one the step fetches. -/
theorem stepRunsTheDecodedInstruction : Obligations.StepRunsTheDecodedInstruction := by
  intro s t i hrun hdec hexec
  rw [step_of_running hrun]
  exact executeNext_of_ok (decodeWord_of_decode_pair hdec) hexec

/-- Settles O9: a word no row selects is a decoding error. -/
theorem unknownWordIsReportedAndSkipped : Obligations.UnknownWordIsReportedAndSkipped := by
  rintro s _ hrun rfl hill
  rw [step_of_running hrun, executeNext_of_error (decode_error_of_not_wellFormed hill)]
  rfl

/-- Settles O10: the gate is closed by either latched kind. -/
theorem haltedStepChangesNothing : Obligations.HaltedStepChangesNothing := by
  refine fun s hsched => ⟨fun hhalt => ?_, fun hhalt => ?_⟩ <;>
  · rw [step_of_empty hsched, engineStep_of_halted (by simp [hhalt]), congrArg haltStatus hhalt]
    rfl

/-- Settles O13: the jump back undoes the fetch advance. -/
theorem jumpToSelfIsAFixedPoint : Obligations.JumpToSelfIsAFixedPoint := by
  rintro s hsched ⟨hhalt, hwait, hfetch⟩
  have hdec : decodeWord (fetch s) = .ok (.jp s.pc) := by
    rw [eq_encode_jp_of_toNat hfetch, decodeWord_encode]
  rw [step_of_running ⟨hsched, hhalt, hwait⟩, executeNext_of_ok hdec (exec_jp s.pc _), setPc_pc_advancePc,
    congrArg haltStatus hhalt]
  rfl

end Sys2Proof

/-! PROOFS. The family of 45_keys_timers.md: the skips on a key and the wait for one (R230, R231, R233, R234). -/

namespace Sys2Proof

open Machine

/-! ### What the instructions answer -/

theorem exec_skp (x : Nibble) (s : State) : exec (.skp x) s =
    .next { s with pc := if keyDown s.key (keyOperand s x) = true then s.pc + 2 else s.pc } :=
  congrArg _ (skipIf_eq _ s)

theorem exec_sknp (x : Nibble) (s : State) : exec (.sknp x) s =
    .next { s with pc := if keyDown s.key (keyOperand s x) = true then s.pc else s.pc + 2 } := by
  refine congrArg _ ((skipIf_eq _ s).trans ?_)
  cases keyDown s.key (keyOperand s x) <;> rfl

theorem exec_ldVxK (x : Nibble) (s : State) : exec (.ldVxK x) s =
    .next { s with waiting := true, waitX := x, waitPrev := s.key, pc := s.pc - 2 } := rfl

theorem eq_keyOperand_of_toNat {s : State} {x k : Nibble} (h : k.toNat = (getV s x).toNat % 16) : k = keyOperand s x :=
  BitVec.eq_of_toNat_eq (by simpa [keyOperand] using h)

/-! ### The newly pressed key (R234, D12) -/

/-- The least key that is newly down is the one found. -/
theorem newlyPressed_eq_some {now prev : BitVec 16} {k : Nibble} (hdown : keyDown now k = true)
    (hup : keyDown prev k = false)
    (hleast : ∀ j : Nibble, j.toNat < k.toNat → keyDown now j = true → keyDown prev j = true) :
    newlyPressed now prev = some k := by
  have hk := k.isLt
  have hfind : (List.range 16).find? ((fun k => keyDown now k && !keyDown prev k) ∘ BitVec.ofNat 4) = some k.toNat := by
    rw [List.find?_range_eq_some]
    refine ⟨by simp [hdown, hup], List.mem_range.2 hk, fun j hj => ?_⟩
    have hjk : (BitVec.ofNat 4 j).toNat < k.toNat := by
      rwa [BitVec.toNat_ofNat, Nat.mod_eq_of_lt (by omega)]
    have hheld := hleast _ hjk
    cases hnow : keyDown now (BitVec.ofNat 4 j) with
    | false => simp [hnow]
    | true => simp [hnow, hheld hnow]
  rw [newlyPressed, List.find?_map, hfind, Option.map_some, BitVec.ofNat_toNat, BitVec.setWidth_eq]

theorem newlyPressed_eq_none {now prev : BitVec 16} (h : ∀ k : Nibble, keyDown now k = true → keyDown prev k = true) :
    newlyPressed now prev = none := by
  rw [newlyPressed, List.find?_eq_none]
  intro k _
  cases hnow : keyDown now k with
  | false => simp
  | true => simp [h k hnow]

theorem awaitingStep_of_new {s : State} {k : Nibble} (h : newlyPressed s.key s.waitPrev = some k) :
    awaitingStep s = { advancePc (setV s s.waitX (k.setWidth 8)) with waiting := false } := by
  rw [awaitingStep, h]

theorem awaitingStep_of_none {s : State} (h : newlyPressed s.key s.waitPrev = none) :
    awaitingStep s = { s with waitPrev := s.key } := by
  rw [awaitingStep, h]

/-! ### The obligations -/

/-- Settles O47: the low four bits of VX name the key. -/
theorem skipOnKey : Obligations.SkipOnKey := by
  intro s x k hk
  obtain rfl := eq_keyOperand_of_toNat hk
  exact ⟨exec_skp x s, exec_sknp x s⟩

/-- Settles O49: moving the PC back undoes the fetch advance. -/
theorem keyWaitBegins : Obligations.KeyWaitBegins := by
  intro s x
  rw [exec_ldVxK, advancePc_pc, BitVec.add_sub_cancel]
  rfl

/-- Settles O11, from what the search for a newly pressed key finds. -/
theorem awaitingStepTakesTheLeastNewKey : Obligations.AwaitingStepTakesTheLeastNewKey := by
  refine fun s hsched hhalt hwait => ⟨fun k hdown hup hleast => ?_, fun hheld => ?_⟩
  · rw [step_of_empty hsched, engineStep_of_waiting hhalt hwait, awaitingStep_of_new (newlyPressed_eq_some hdown hup hleast),
      BitVec.ofNat_toNat]
    rfl
  · rw [step_of_empty hsched, engineStep_of_waiting hhalt hwait, awaitingStep_of_none (newlyPressed_eq_none hheld)]
    rfl

end Sys2Proof

/-! PROOFS. The family of 70_reset_and_hazards.md and of the host's operations: reset, load, tick and snapshot (R32, R261,
R265, R290 to R293). -/

namespace Sys2Proof

open Machine

/-! ### What the operations answer -/

theorem perform_machineInit (s : State) : perform .machineInit s = .next (machineInit s) := rfl

theorem perform_step (s : State) : perform .step s = engineStep s := rfl

theorem perform_tickTimers (s : State) : perform .tickTimers s = .next (tickTimers s) := rfl

theorem perform_snapshotFramebuffer (s : State) :
    perform .snapshotFramebuffer s = .next { s with result := .snapshot s.fb } := rfl

/-- A ROM fits up to 3584 bytes, the cells from 0x200 up (R292). -/
theorem rom_fits_iff (bytes : List Byte) :
    Config.progOrigin + bytes.length ≤ Config.memSize ↔ bytes.length ≤ 3584 := by
  simp only [Config.progOrigin, Config.memSize]
  omega

theorem loadRom_of_le {bytes : List Byte} {s : State} (hopen : s.loadOpen = true) (h : bytes.length ≤ 3584) :
    loadRom bytes s =
      .next { s with mem := copyBytes s.mem Config.progOrigin bytes, loadOpen := false, result := .loaded } := by
  have hfits := (rom_fits_iff bytes).2 h
  simp [loadRom, romFits, hopen, hfits]

theorem loadRom_of_gt {bytes : List Byte} {s : State} (hopen : s.loadOpen = true) (h : 3584 < bytes.length) :
    loadRom bytes s = .next { s with loadOpen := false, result := .capacityError } := by
  have hfits := mt (rom_fits_iff bytes).1 (Nat.not_le.2 h)
  simp [loadRom, romFits, hopen, hfits]

theorem loadRom_of_closed {bytes : List Byte} {s : State} (h : s.loadOpen = false) :
    loadRom bytes s = .refused .loadOutOfOrder := by
  simp [loadRom, h]

/-- The font table fills 0x050 to 0x09F, and past its end nothing is set (R61, R62). -/
theorem resetByte_eq (a : Nat) : resetByte a =
    if 0x050 ≤ a ∧ a ≤ 0x09F then Config.font.getD (a - 0x050) 0 else 0 := by
  have hlen : Config.font.length = 80 := rfl
  rw [resetByte, Config.fontBase]
  by_cases hlo : 0x050 ≤ a
  · by_cases hhi : a ≤ 0x09F
    · rw [if_pos hlo, if_pos ⟨hlo, hhi⟩]
    · rw [if_pos hlo, if_neg fun h => hhi h.2, List.getD_eq_default _ _ (by omega)]
  · rw [if_neg hlo, if_neg fun h => hlo h.1]

/-! ### The obligations -/

/-- Settles O14: the registers, slots, pixels and keys are constant, and memory lists no cell. -/
theorem resetStateValues : Obligations.ResetStateValues :=
  ⟨fun x => by simp [getV, State.reset], rfl, rfl, rfl, fun d hd => by simp [State.reset, Vector.getD, hd], rfl, rfl,
    pixel_blankFrame, fun k => by simp [keyDown, State.reset], fun a => resetByte_eq a.toNat, rfl, rfl, rfl, rfl⟩

/-- Settles O15: the operation at the head of the schedule is the reset. -/
theorem machineInitRestoresReset : Obligations.MachineInitRestoresReset := fun _ _ hs =>
  (step_of_cons hs).trans (perform_machineInit _)

/-- Settles O16: the copied bytes are read back cell by cell. -/
theorem loadCopiesTheRom : Obligations.LoadCopiesTheRom := by
  intro s bytes rest hs hopen hm hlen
  have hstep := (step_of_cons hs).trans (loadRom_of_le (s := { s with schedule := rest }) hopen hlen)
  refine ⟨_, hstep, rfl, fun j hj => ?_, fun a ha => cellAt_copyBytes_outside _ _ _ ha, rfl⟩
  have hread := cellAt_copyBytes_inside hm Config.progOrigin bytes ((rom_fits_iff bytes).2 hlen) hj
  rwa [memRead, BitVec.toNat_ofNat, Nat.mod_eq_of_lt (by omega)]

/-- Settles O17: the ROM does not fit. -/
theorem loadTooLargeLeavesMemory : Obligations.LoadTooLargeLeavesMemory := fun s _ rest hs hopen hlen =>
  (step_of_cons hs).trans (loadRom_of_gt (s := { s with schedule := rest }) hopen hlen)

/-- Settles O19, timer by timer. -/
theorem tickCountsTheTimersDown : Obligations.TickCountsTheTimersDown := fun s _ hs =>
  ⟨_, (step_of_cons hs).trans (perform_tickTimers _), toNat_countDown s.dt, toNat_countDown s.st, rfl⟩

/-- Settles O22: the value returned is the framebuffer itself. -/
theorem snapshotReturnsThePixels : Obligations.SnapshotReturnsThePixels := fun s _ hs =>
  ⟨s.fb, (step_of_cons hs).trans (perform_snapshotFramebuffer _), fun _ _ => rfl⟩

end Sys2Proof

/-! PROOFS. The rules about the whole machine: what an instruction can do, said once, and from it the frames of R32, the
invariant, and what a step leaves of a halt and of a wait (R120, R125, R234, R250, R258, R294). -/

namespace Sys2Proof

open Machine

/-! ### What an instruction can do (R32, column "written by") -/

/-- Every way an instruction can change the state, with the instructions that can do it; what a constructor does not write
is as before (R8). -/
inductive Effect (s : State) (i : Instr) : State → Prop
  | registers (v : Vector Byte 16) (hv : ∀ z, writesV i z = false → getV { s with v := v } z = getV s z) :
      Effect s i { s with v := v }
  | random {x : Nibble} {nn : Byte} (hi : i = .rnd x nn) (v : Vector Byte 16)
      (hv : ∀ z, writesV i z = false → getV { s with v := v } z = getV s z) :
      Effect s i { s with v := v, draws := s.draws + 1 }
  | clear (hi : i = .cls) : Effect s i { s with fb := blankFrame }
  | draw {x y n : Nibble} (hi : i = .drw x y n) (v : Vector Byte 16) (fb : Framebuffer)
      (hv : ∀ z, writesV i z = false → getV { s with v := v } z = getV s z) :
      Effect s i { s with v := v, fb := fb }
  | control (hi : movesPc i = true) (a : Addr) : Effect s i { s with pc := a }
  | index (hi : (∃ nnn, i = .ldI nnn) ∨ (∃ x, i = .addI x) ∨ ∃ x, i = .ldF x) (a : Addr) : Effect s i { s with ireg := a }
  | memory (m : Memory) (hwf : Memory.wf s.mem = true → Memory.wf m = true)
      (hout : ∀ a, (∀ k, k < storedBytes i → a ≠ indexAddr s k) → memRead m a = memRead s.mem a) :
      Effect s i { s with mem := m }
  | delay {x : Nibble} (hi : i = .ldDtVx x) (b : Byte) : Effect s i { s with dt := b }
  | sound {x : Nibble} (hi : i = .ldStVx x) (b : Byte) : Effect s i { s with st := b }
  | await {x : Nibble} (hi : i = .ldVxK x) :
      Effect s i { s with waiting := true, waitX := x, waitPrev := s.key, pc := s.pc - 2 }
  | call {nnn : Addr} (hi : i = .call nnn) (h : s.sp < 16) :
      Effect s i { s with stack := s.stack.set s.sp (s.pc.setWidth 16) h, sp := s.sp + 1, pc := nnn }
  | overflow {nnn : Addr} (hi : i = .call nnn) : Effect s i { s with halt := .stackOverflow }
  | ret (hi : i = .ret) {d : Nat} (h : s.sp = d + 1) (a : Addr) : Effect s i { s with pc := a, sp := d }
  | underflow (hi : i = .ret) : Effect s i { s with halt := .stackUnderflow }

/-- A register written by an instruction that may write it: the registers it may not write are kept. -/
theorem getV_setV_of_writesV {i : Instr} {x : Nibble} (h : writesV i x = true) (s : State) (b : Byte) (z : Nibble)
    (hz : writesV i z = false) : getV (setV s x b) z = getV s z := by
  have hne : x ≠ z := by rintro rfl; simp [h] at hz
  rw [getV_setV, if_neg hne]

namespace Effect

variable {s : State} {i : Instr}

theorem of_setV {x : Nibble} (h : writesV i x = true) (b : Byte) : Effect s i (setV s x b) :=
  .registers _ (getV_setV_of_writesV h s b)

theorem of_writeWithFlag {x : Nibble} (hx : writesV i x = true) (hf : writesV i vf = true) (r : Byte) (c : Bool) :
    Effect s i (writeWithFlag s x r c) := by
  refine .registers _ fun z hz => ?_
  have hnf : z ≠ vf := by rintro rfl; simp [hf] at hz
  have hnx : z ≠ x := by rintro rfl; simp [hx] at hz
  exact (getV_writeWithFlag s x z r c).trans ((if_neg hnf).trans (if_neg hnx))

theorem of_skipIf (h : movesPc i = true) (c : Bool) : Effect s i (skipIf c s) := by
  rw [skipIf_eq]
  exact .control h _

end Effect

/-- FX65 writes V0 to VX (R195). -/
theorem effect_loadBlock (s : State) (x : Nibble) : Effect s (.ldVxMem x) (loadBlock s x) := by
  rw [loadBlock_eq]
  refine .registers _ fun z hz => ?_
  have hgt : ¬ z.toNat ≤ x.toNat := of_decide_eq_false hz
  rw [← loadBlock_eq, getV_loadBlock, if_neg hgt]

/-- Every instruction answers a next state, which one of the effects has made (R250). The cases are the instructions. -/
theorem exec_effect (i : Instr) (s : State) : ∃ t, exec i s = .next t ∧ Effect s i t := by
  cases i
  case cls => exact ⟨_, exec_cls s, .clear rfl⟩
  case ret =>
    cases hsp : s.sp with
    | zero => exact ⟨_, exec_ret_of_empty hsp, .underflow rfl⟩
    | succ d => exact ⟨_, exec_ret_of_pos hsp, .ret rfl hsp _⟩
  case jp nnn => exact ⟨_, exec_jp nnn s, .control rfl _⟩
  case call nnn =>
    by_cases hsp : s.sp < 16
    · exact ⟨_, exec_call_of_lt nnn hsp, .call rfl hsp⟩
    · exact ⟨_, exec_call_of_full nnn (Nat.not_lt.1 hsp), .overflow rfl⟩
  case jpV0 nnn => exact ⟨_, exec_jpV0 nnn s, .control rfl _⟩
  case seImm | sneImm | seReg | sneReg | skp | sknp => exact ⟨_, rfl, .of_skipIf rfl _⟩
  case ldImm | addImm | ldReg | or | and | xor | ldVxDt => exact ⟨_, rfl, .of_setV (by simp [writesV]) _⟩
  case addReg | sub | shr | subn | shl => exact ⟨_, rfl, .of_writeWithFlag (by simp [writesV]) (by simp [writesV, vf]) _ _⟩
  case rnd x nn => exact ⟨_, exec_rnd x nn s, .random rfl _ (getV_setV_of_writesV (by simp [writesV]) s _)⟩
  case drw x y n => exact ⟨_, exec_drw x y n s, .draw rfl _ _ (getV_setV_of_writesV (by simp [writesV, vf]) s _)⟩
  case ldI nnn => exact ⟨_, exec_ldI nnn s, .index (.inl ⟨nnn, rfl⟩) _⟩
  case addI x => exact ⟨_, exec_addI x s, .index (.inr (.inl ⟨x, rfl⟩)) _⟩
  case ldF x => exact ⟨_, exec_ldF x s, .index (.inr (.inr ⟨x, rfl⟩)) _⟩
  case ldVxK x => exact ⟨_, exec_ldVxK x s, .await rfl⟩
  case ldDtVx x => exact ⟨_, exec_ldDtVx x s, .delay rfl _⟩
  case ldStVx x => exact ⟨_, exec_ldStVx x s, .sound rfl _⟩
  case ldB x =>
    exact ⟨_, exec_ldB x s, .memory _ (fun hm => wf_storeDigits hm _) fun a ha => memRead_storeDigits_outside s _ ha⟩
  case ldMemVx x =>
    exact ⟨_, exec_ldMemVx x s, .memory _ (fun hm => wf_storeBlock hm x) fun a ha =>
      memRead_storeBlock_outside s x fun k hk => ha k (Nat.lt_succ_of_le hk)⟩
  case ldVxMem x => exact ⟨_, exec_ldVxMem x s, effect_loadBlock s x⟩

theorem effect_of_exec {i : Instr} {s t : State} (h : exec i s = .next t) : Effect s i t := by
  obtain ⟨u, hu, heffect⟩ := exec_effect i s
  cases hu.symm.trans h
  exact heffect

/-- Settles O50: one of the effects has made the next state. -/
theorem everyInstructionHasANextState : Obligations.EveryInstructionHasANextState := fun i s =>
  let ⟨t, ht, _⟩ := exec_effect i s
  ⟨t, ht⟩

/-! ### The frames (R32, R72) -/

/-- Settles O54: the effects that write registers carry their frame, and the others write none. -/
theorem registersKeptByInstructions : Obligations.RegistersKeptByInstructions := by
  intro i s t z h hz
  cases effect_of_exec h with
  | registers v hv => exact hv z hz
  | random hi v hv => exact hv z hz
  | draw hi v fb hv => exact hv z hz
  | _ => rfl

/-- Settles O55: the one effect that writes memory carries its frame. -/
theorem memoryKeptOutsideTheStoredBytes : Obligations.MemoryKeptOutsideTheStoredBytes := by
  intro i s t a h ha
  cases effect_of_exec h with
  | memory m hwf hout => exact hout a ha
  | _ => rfl

/-- Settles O56, effect by effect: each writes only what its instruction is named for. -/
theorem otherStateKeptByInstructions : Obligations.OtherStateKeptByInstructions := by
  intro i s t h
  cases effect_of_exec h with
  | registers | memory => simp
  | control hi => simp [hi]
  | index hi => obtain ⟨_, rfl⟩ | ⟨_, rfl⟩ | ⟨_, rfl⟩ := hi <;> simp
  | random hi | clear hi | draw hi | delay hi | sound hi => subst hi; simp
  | await hi | call hi | overflow hi | ret hi | underflow hi => subst hi; simp [movesPc]

end Sys2Proof

/-! PROOFS. The rules about every step: the invariant, the one refusal, and what ends a halt or a wait (R24, R120, R125,
R234, R250, R258, R294). -/

namespace Sys2Proof

open Machine

/-! ### A step is one operation on the state without it (R266, R267) -/

theorem step_eq_perform (s : State) :
    step s = perform (s.schedule.headD .step) { s with schedule := s.schedule.tail } := by
  cases hs : s.schedule with
  | nil =>
    rw [step_of_empty hs, List.headD_nil, perform_step, List.tail_nil, ← hs]
  | cons op rest => rw [step_of_cons hs, List.headD_cons, List.tail_cons]

/-- An operation that is not the host's default was scheduled. -/
theorem schedule_of_headD {ops : List HostOp} {op : HostOp} (h : ops.headD .step = op) (hne : op ≠ .step) :
    ∃ rest, ops = op :: rest := by
  cases ops with
  | nil => exact absurd h.symm hne
  | cons op' rest => exact ⟨rest, by rw [← h, List.headD_cons]⟩

/-! ### Every operation answers a next state, but for a load out of order (R250, U14) -/

theorem engineStep_next (s : State) : ∃ t, engineStep s = .next t := by
  by_cases hhalt : s.halt = .none
  · cases hwait : s.waiting with
    | true => exact ⟨_, engineStep_of_waiting hhalt hwait⟩
    | false =>
      rw [engineStep_of_open hhalt hwait]
      cases hdec : decodeWord (fetch s) with
      | error e => exact ⟨_, executeNext_of_error hdec⟩
      | ok i =>
        obtain ⟨t, ht, -⟩ := exec_effect i (advancePc s)
        exact ⟨_, executeNext_of_ok hdec ht⟩
  · exact ⟨_, engineStep_of_halted hhalt⟩

theorem perform_next_or_refused (op : HostOp) (s : State) : (∃ t, perform op s = .next t) ∨
    (perform op s = .refused .loadOutOfOrder ∧ s.loadOpen = false ∧ ∃ bytes, op = .load bytes) := by
  cases op with
  | load bytes =>
    obtain ⟨-, -, h⟩ | ⟨-, -, h⟩ | ⟨hclosed, h⟩ := loadRom_cases bytes s
    · exact .inl ⟨_, h⟩
    · exact .inl ⟨_, h⟩
    · exact .inr ⟨h, hclosed, bytes, rfl⟩
  | step => exact .inl (engineStep_next s)
  | machineInit | tickTimers | setKey | snapshotFramebuffer | isSoundActive => exact .inl ⟨_, rfl⟩

/-- Settles O51: only a scheduled `load` is ever refused. -/
theorem stepStopsOnlyOnLoadOutOfOrder : Obligations.StepStopsOnlyOnLoadOutOfOrder := by
  intro s
  rw [step_eq_perform]
  obtain hnext | ⟨hrefused, hclosed, bytes, hop⟩ :=
    perform_next_or_refused (s.schedule.headD .step) { s with schedule := s.schedule.tail }
  · exact .inl hnext
  · obtain ⟨rest, hs⟩ := schedule_of_headD hop (by simp)
    exact .inr ⟨hrefused, hclosed, bytes, rest, hs⟩

/-! ### A step or a load closes the place of `load` and leaves the rest of the schedule (R294) -/

theorem schedule_of_effect {s t : State} {i : Instr} (h : Effect s i t) : t.schedule = s.schedule := by
  cases h <;> rfl

theorem schedule_awaitingStep (s : State) : (awaitingStep s).schedule = s.schedule := by
  obtain ⟨k, -, -, -, h⟩ | ⟨-, h⟩ := awaitingStep_cases s
  · rw [h, setPc_schedule, setV_schedule]
  · rw [h]

theorem engineStep_closes_load {s t : State} (h : engineStep s = .next t) :
    t.loadOpen = false ∧ t.schedule = s.schedule := by
  obtain ⟨-, rfl⟩ | ⟨-, -, rfl⟩ | ⟨-, -, i, u, -, hexec, rfl⟩ | ⟨-, -, -, rfl⟩ := engineStep_cases h
  · exact ⟨rfl, rfl⟩
  · exact ⟨rfl, schedule_awaitingStep s⟩
  · have hu : u.schedule = (advancePc s).schedule := schedule_of_effect (effect_of_exec hexec)
    exact ⟨rfl, hu⟩
  · exact ⟨rfl, rfl⟩

/-- A load that has a meaning writes memory at most, and is reported (R292, R293). -/
theorem loadRom_frame {bytes : List Byte} {s t : State} (h : loadRom bytes s = .next t) :
    t = { s with mem := t.mem, loadOpen := false, result := t.result } := by
  obtain ⟨-, -, hload⟩ | ⟨-, -, hload⟩ | ⟨-, hload⟩ := loadRom_cases bytes s <;> cases hload.symm.trans h
  · rfl
  · rfl

/-- Settles O18: the second load finds its place closed. -/
theorem loadOutOfOrderHasNoMeaning : Obligations.LoadOutOfOrderHasNoMeaning := by
  intro s t op bytes rest hs hstep hop
  rw [step_of_cons hs] at hstep
  obtain ⟨hclosed, hsched⟩ : t.loadOpen = false ∧ t.schedule = .load bytes :: rest := by
    obtain rfl | ⟨rom, rfl⟩ := hop
    · exact engineStep_closes_load hstep
    · rw [loadRom_frame hstep]
      exact ⟨rfl, rfl⟩
  rw [step_of_cons hsched]
  exact loadRom_of_closed hclosed

/-! ### The invariant (R24, R120, R125) -/

/-- Settles O52: memory lists no cell, the stack is empty, and nothing waits or was reported. -/
theorem resetMeetsTheInvariant : Obligations.ResetMeetsTheInvariant :=
  ⟨rfl, Nat.zero_le _, fun _ _ hd => absurd hd (Nat.not_lt_zero _), fun _ => rfl,
    fun _ hop => absurd hop List.not_mem_nil⟩

/-- An instruction keeps the invariant where the gate lets one run (R120): the stack is the one part it must look after. -/
theorem inv_of_effect {s t : State} {i : Instr} (h : Effect s i t) (hinv : s.Inv) (hhalt : s.halt = .none)
    (hwait : s.waiting = false) : t.Inv := by
  obtain ⟨hmem, hsp, hslots, -, hreports⟩ := hinv
  cases h with
  | memory m hwf => exact ⟨hwf hmem, hsp, hslots, fun _ => hhalt, hreports⟩
  | call hi hlt =>
    refine ⟨hmem, hlt, fun d hd hlive => ?_, fun _ => hhalt, hreports⟩
    have hpc := s.pc.isLt
    rw [slot_set]
    split
    · rw [BitVec.toNat_setWidth]
      omega
    · exact hslots d hd (by simp only at hlive; omega)
  | ret hi hd =>
    exact ⟨hmem, by simp only; omega, fun e he hlive => hslots e he (by simp only at hlive; omega), fun _ => hhalt, hreports⟩
  | overflow | underflow => exact ⟨hmem, hsp, hslots, fun hw => by simp [hwait] at hw, hreports⟩
  | _ => exact ⟨hmem, hsp, hslots, fun _ => hhalt, hreports⟩

theorem inv_awaitingStep {s : State} (hinv : s.Inv) : (awaitingStep s).Inv := by
  obtain ⟨hmem, hsp, hslots, hwait, hreports⟩ := hinv
  obtain ⟨k, -, -, -, h⟩ | ⟨-, h⟩ := awaitingStep_cases s <;> rw [h]
  · exact ⟨hmem, hsp, hslots, fun hw => by simp at hw, hreports⟩
  · exact ⟨hmem, hsp, hslots, hwait, hreports⟩

theorem inv_report {s : State} (hinv : s.Inv) (st : Status) : (report st s).Inv := hinv

theorem inv_advancePc {s : State} (hinv : s.Inv) : (advancePc s).Inv := hinv

theorem inv_reportUnknown {s : State} (hinv : s.Inv) {op : Word} (hop : wordWellFormed op = false) :
    (reportUnknown op s).Inv := by
  obtain ⟨hmem, hsp, hslots, hwait, hreports⟩ := hinv
  exact ⟨hmem, hsp, hslots, hwait, List.forall_mem_cons.2 ⟨hop, hreports⟩⟩

theorem inv_engineStep {s t : State} (hinv : s.Inv) (h : engineStep s = .next t) : t.Inv := by
  obtain ⟨-, rfl⟩ | ⟨-, -, rfl⟩ | ⟨hhalt, hwait, i, u, -, hexec, rfl⟩ | ⟨-, -, ⟨e, hdec⟩, rfl⟩ := engineStep_cases h
  · exact inv_report hinv _
  · exact inv_report (inv_awaitingStep hinv) _
  · exact inv_report (inv_of_effect (effect_of_exec hexec) (inv_advancePc hinv) hhalt hwait) _
  · exact inv_reportUnknown (inv_advancePc hinv) (wordWellFormed_of_decode_error hdec)

theorem inv_loadRom {bytes : List Byte} {s t : State} (hinv : s.Inv) (h : loadRom bytes s = .next t) : t.Inv := by
  obtain ⟨hmem, hrest⟩ := hinv
  obtain ⟨-, hfits, hload⟩ | ⟨-, -, hload⟩ | ⟨-, hload⟩ := loadRom_cases bytes s <;> cases hload.symm.trans h
  · exact ⟨wf_copyBytes hmem _ _ hfits, hrest⟩
  · exact ⟨hmem, hrest⟩

/-- The reset keeps the reports, which the invariant speaks of (log entry 5). -/
theorem inv_machineInit {s : State} (hinv : s.Inv) : (machineInit s).Inv := by
  obtain ⟨-, -, -, -, hreports⟩ := hinv
  obtain ⟨hmem, hsp, hslots, hwait, -⟩ := resetMeetsTheInvariant
  exact ⟨hmem, hsp, hslots, hwait, hreports⟩

theorem inv_perform {op : HostOp} {s t : State} (hinv : s.Inv) (h : perform op s = .next t) : t.Inv := by
  cases op with
  | machineInit => cases h; exact inv_machineInit hinv
  | load bytes => exact inv_loadRom hinv h
  | step => exact inv_engineStep hinv h
  | tickTimers | setKey | snapshotFramebuffer | isSoundActive => cases h; exact hinv

/-- Settles O53: the operation keeps the invariant, which does not speak of the schedule. -/
theorem stepKeepsTheInvariant : Obligations.StepKeepsTheInvariant := by
  intro s t hinv h
  rw [step_eq_perform] at h
  have hinv' : State.Inv { s with schedule := s.schedule.tail } := hinv
  exact inv_perform hinv' h

/-! ### What ends a halt and a wait (R234, R258) -/

theorem halt_perform {op : HostOp} {s t : State} (hhalt : s.halt ≠ .none) (hop : op ≠ .machineInit)
    (h : perform op s = .next t) : t.halt = s.halt := by
  cases op with
  | machineInit => exact absurd rfl hop
  | load bytes => rw [loadRom_frame h]
  | step =>
    cases (engineStep_of_halted hhalt).symm.trans h
    rfl
  | tickTimers | setKey | snapshotFramebuffer | isSoundActive => cases h; rfl

/-- Settles O57: a halted engine ignores `step`, and no other operation but the reset writes the latch. -/
theorem onlyMachineInitEndsAHalt : Obligations.OnlyMachineInitEndsAHalt := by
  intro s t hhalt h hne
  rw [step_eq_perform] at h
  by_cases hop : s.schedule.headD .step = .machineInit
  · exact schedule_of_headD hop (by simp)
  · exact absurd (halt_perform (s := { s with schedule := s.schedule.tail }) hhalt hop h) hne

theorem waiting_perform {op : HostOp} {s t : State} (hhalt : s.halt = .none) (hwait : s.waiting = true)
    (hop : op ≠ .machineInit) (h : perform op s = .next t) (hends : t.waiting = false) :
    ∃ k, keyDown s.key k = true ∧ keyDown s.waitPrev k = false ∧ getV t s.waitX = BitVec.ofNat 8 k.toNat := by
  cases op with
  | machineInit => exact absurd rfl hop
  | load bytes =>
    rw [loadRom_frame h] at hends
    simp [hwait] at hends
  | step =>
    cases (engineStep_of_waiting hhalt hwait).symm.trans h
    obtain ⟨k, -, hdown, hup, hawait⟩ | ⟨-, hawait⟩ := awaitingStep_cases s
    · refine ⟨k, hdown, hup, ?_⟩
      rw [getV_report, hawait, BitVec.ofNat_toNat]
      exact (getV_setV s s.waitX s.waitX _).trans (if_pos rfl)
    · simp [hawait, hwait] at hends
  | tickTimers | setKey | snapshotFramebuffer | isSoundActive =>
    cases h
    simp [tickTimers, setKey, hwait] at hends

/-- Settles O58: of a waiting engine's operations only the reset and the awaiting step write the wait. -/
theorem onlyANewKeyEndsAWait : Obligations.OnlyANewKeyEndsAWait := by
  rintro s t ⟨-, -, -, hhalt, -⟩ hwait h hends
  rw [step_eq_perform] at h
  by_cases hop : s.schedule.headD .step = .machineInit
  · exact .inl (schedule_of_headD hop (by simp))
  · exact .inr (waiting_perform (s := { s with schedule := s.schedule.tail }) (hhalt hwait) hwait hop h hends)

end Sys2Proof

/-! PROOFS. What is not read: ST by no instruction, the keys by three, the schedule by none and not by the engine (R25, R27,
R33, R266). -/

namespace Sys2Proof

open Machine

/-! ### Instructions on a state with these three replaced -/

/-- The state with other keys, another sound timer and another schedule. -/
def replaceUnread (keys : BitVec 16) (b : Byte) (ops : List HostOp) (s : State) : State :=
  { s with key := keys, st := b, schedule := ops }

/-- The registers FX65 loads come from memory and I (R195). -/
theorem loadBlock_replaceUnread (keys : BitVec 16) (b : Byte) (ops : List HostOp) (s : State) (x : Nibble) :
    loadBlock (replaceUnread keys b ops s) x = replaceUnread keys b ops (loadBlock s x) := by
  have hv : (loadBlock (replaceUnread keys b ops s) x).v = (loadBlock s x).v :=
    v_ext_of_getV fun z => by rw [getV_loadBlock, getV_loadBlock]; rfl
  rw [loadBlock_eq, hv, loadBlock_eq s x]
  rfl

/-- The cases are the instructions: what each answers is made of the fields left alone. Only the three that read the keys need
them to be the same, and FX18 overwrites ST. -/
theorem exec_replaceUnread {i : Instr} {s t : State} {keys : BitVec 16} (b : Byte) (ops : List HostOp)
    (hkeys : keys = s.key ∨ ∀ x, i ≠ .skp x ∧ i ≠ .sknp x ∧ i ≠ .ldVxK x) (hst : ∀ x, i ≠ .ldStVx x)
    (h : exec i s = .next t) : exec i (replaceUnread keys b ops s) = .next (replaceUnread keys b ops t) := by
  cases i
  case ldStVx x => exact absurd rfl (hst x)
  case cls | jp | jpV0 | ldImm | addImm | ldReg | or | and | xor | addReg | sub | shr | subn | shl | ldI | rnd | drw | ldVxDt
      | ldDtVx | addI | ldF | ldB | ldMemVx =>
    cases h
    rfl
  case seImm x nn => rw [exec_seImm] at h ⊢; cases h; rfl
  case sneImm x nn => rw [exec_sneImm] at h ⊢; cases h; rfl
  case seReg x y => rw [exec_seReg] at h ⊢; cases h; rfl
  case sneReg x y => rw [exec_sneReg] at h ⊢; cases h; rfl
  case skp x =>
    obtain rfl := hkeys.resolve_right fun hne => (hne x).1 rfl
    rw [exec_skp] at h ⊢; cases h; rfl
  case sknp x =>
    obtain rfl := hkeys.resolve_right fun hne => (hne x).2.1 rfl
    rw [exec_sknp] at h ⊢; cases h; rfl
  case ldVxK x =>
    obtain rfl := hkeys.resolve_right fun hne => (hne x).2.2 rfl
    cases h
    rfl
  case call nnn =>
    by_cases hsp : s.sp < 16
    · cases (exec_call_of_lt nnn hsp).symm.trans h
      exact exec_call_of_lt (s := replaceUnread keys b ops s) nnn hsp
    · cases (exec_call_of_full nnn (Nat.not_lt.1 hsp)).symm.trans h
      exact exec_call_of_full (s := replaceUnread keys b ops s) nnn (Nat.not_lt.1 hsp)
  case ret =>
    cases hsp : s.sp with
    | zero =>
      cases (exec_ret_of_empty hsp).symm.trans h
      exact exec_ret_of_empty (s := replaceUnread keys b ops s) hsp
    | succ d =>
      cases (exec_ret_of_pos hsp).symm.trans h
      exact exec_ret_of_pos (s := replaceUnread keys b ops s) hsp
  case ldVxMem x =>
    cases h
    rw [exec_ldVxMem, loadBlock_replaceUnread]

/-- With ST left as it is, FX18 needs no exception. -/
theorem exec_replace_keys_schedule {i : Instr} {s t : State} {keys : BitVec 16} (ops : List HostOp)
    (hkeys : keys = s.key ∨ ∀ x, i ≠ .skp x ∧ i ≠ .sknp x ∧ i ≠ .ldVxK x) (h : exec i s = .next t) :
    exec i { s with key := keys, schedule := ops } = .next { t with key := keys, schedule := ops } := by
  by_cases hi : ∃ x, i = .ldStVx x
  · obtain ⟨x, rfl⟩ := hi
    cases h
    rfl
  · have hi : ∀ x, i ≠ .ldStVx x := fun x e => hi ⟨x, e⟩
    obtain ⟨-, -, -, hst, -⟩ := otherStateKeptByInstructions i s t h
    exact (exec_replaceUnread s.st ops hkeys hi h).trans (by rw [replaceUnread, ← hst hi])

/-! ### The engine does not read the schedule (log entry 3) -/

theorem awaitingStep_replace_schedule (s : State) (ops : List HostOp) :
    awaitingStep { s with schedule := ops } = { awaitingStep s with schedule := ops } := by
  cases hnew : newlyPressed s.key s.waitPrev with
  | none => rw [awaitingStep_of_none hnew, awaitingStep_of_none (s := { s with schedule := ops }) hnew]
  | some k =>
    rw [awaitingStep_of_new hnew, awaitingStep_of_new (s := { s with schedule := ops }) hnew]
    rfl

theorem exec_replace_schedule {i : Instr} {s t : State} (ops : List HostOp) (h : exec i s = .next t) :
    exec i { s with schedule := ops } = .next { t with schedule := ops } := by
  obtain ⟨-, hkey, -⟩ := otherStateKeptByInstructions i s t h
  exact (exec_replace_keys_schedule ops (.inl rfl) h).trans (by rw [← hkey])

theorem engineStep_replace_schedule {s t : State} (ops : List HostOp) (h : engineStep s = .next t) :
    engineStep { s with schedule := ops } = .next { t with schedule := ops } := by
  obtain ⟨hhalt, rfl⟩ | ⟨hhalt, hwait, rfl⟩ | ⟨hhalt, hwait, i, u, hdec, hexec, rfl⟩ | ⟨hhalt, hwait, ⟨e, hdec⟩, rfl⟩ :=
    engineStep_cases h
  · exact engineStep_of_halted (s := { s with schedule := ops }) hhalt
  · rw [engineStep_of_waiting (s := { s with schedule := ops }) hhalt hwait, awaitingStep_replace_schedule]
    rfl
  · rw [engineStep_of_open (s := { s with schedule := ops }) hhalt hwait]
    exact executeNext_of_ok (s := { s with schedule := ops }) hdec (exec_replace_schedule ops hexec)
  · rw [engineStep_of_open (s := { s with schedule := ops }) hhalt hwait]
    exact executeNext_of_error (s := { s with schedule := ops }) hdec

/-! ### The obligations -/

/-- Settles O12: the step takes the operation off the schedule, which the engine does not read. -/
theorem stepPerformsTheScheduledOperation : Obligations.StepPerformsTheScheduledOperation := by
  refine ⟨fun s op rest hs => step_of_cons hs, fun s t rest h => ?_⟩
  rw [step_of_empty rfl] at h
  rw [step_of_cons (s := { s with schedule := .step :: rest }) rfl]
  exact engineStep_replace_schedule (s := { s with schedule := [] }) rest h

/-- Settles O59: FX18 overwrites ST, and every other instruction leaves the one it did not read. -/
theorem soundTimerCannotBeRead : Obligations.SoundTimerCannotBeRead := by
  intro i s t b h
  refine ⟨fun ⟨x, hi⟩ => ?_, fun hi => ?_⟩
  · subst hi
    cases h
    rfl
  · obtain ⟨-, hkey, -, -, -, -, -, -, -, hschedule, -⟩ := otherStateKeptByInstructions i s t h
    exact (exec_replaceUnread b s.schedule (.inl rfl) hi h).trans (by rw [replaceUnread, ← hkey, ← hschedule])

/-- Settles O60, from what the other instructions do on a state with other keys. -/
theorem keysReadOnlyByKeyInstructions : Obligations.KeysReadOnlyByKeyInstructions := by
  intro i s t keys hi h
  obtain ⟨-, -, -, -, -, -, -, -, -, hschedule, -⟩ := otherStateKeptByInstructions i s t h
  exact (exec_replace_keys_schedule s.schedule (.inr hi) h).trans (by rw [← hschedule])

end Sys2Proof
